-- ==== Sys2Proof/Word.lean ====
section
/-! DEFINITION. The words, buses and coordinates of the keypad classification core: the 8-bit stimulus word and the
10-bit event word (R51, R58), the row and column lines (R6, R14) and the key they meet at (R6). -/

namespace Sys2Proof

/-- One stimulus word, format S8 (R51): `op[7:6]`, `rsv[5:3]`, `arg[2:0]`. -/
abbrev StimulusWord := BitVec 8

/-- One report event word, format E10 (R58): `kind[9:8]`, `k1[7:4]`, `k2[3:0]`. -/
abbrev EventWord := BitVec 10

/-- The three column lines as a bus: bit `c` belongs to column `c` (R14, R40). -/
abbrev ColBits := BitVec 3

/-- The four row lines as a bus: bit `r` belongs to row `r` (R14, R22, R40). -/
abbrev RowBits := BitVec 4

/-- A row index, `ROWS = 4` (R6). -/
abbrev Row := Fin 4

/-- A column index, `COLS = 3` (R6). -/
abbrev Col := Fin 3

/-- A key: "(row ∈ [0,4), column ∈ [0,3))" (R6). -/
structure Key where
  row : Row
  col : Col
deriving DecidableEq, Repr

end Sys2Proof
end

