-- ==== Sys2Proof/Syntax.lean ====
section
/-! DEFINITION. The operations of the block, which play the part of instructions (R3): the four rows of
spec/opcode_table.json. -/

namespace Sys2Proof

/-- One input operation (R52). -/
inductive Instr where
  /-- NOP (R106): does nothing. -/
  | nop
  /-- TICK (R65), with `col_asserted[2:0]` sampled at the tick (R53). -/
  | tick (cols : ColBits)
  /-- EDGE (R71), with `edge_mask[2:0]` (R54). -/
  | edge (mask : ColBits)
  /-- RESET (R105). -/
  | reset
deriving DecidableEq, Repr

end Sys2Proof
end

