-- ==== Sys2Proof/WellFormed.lean ====
section
/-! DEFINITION. What is well formed: an operation (every operand value is legal, R53, R54), and a stimulus word
(R55). -/

namespace Sys2Proof

/-- Every value of the 3-bit operand of TICK and of EDGE is legal (R53, R54), and NOP and RESET have no operand
(R105, R106). The operand's width is in its type, so no term of `Instr` is ill formed. -/
def Instr.wellFormed : Instr → Bool
  | .nop => true
  | .tick _ => true
  | .edge _ => true
  | .reset => true

/-- R55, as its sentence reads: a word is illegal if `rsv ≠ 000`, or if `op ∈ {00, 11}` and `arg ≠ 000`. The decoder
follows R56 instead, and that the two agree is a statement. -/
def StimulusWord.legal (w : StimulusWord) : Bool :=
  !(w &&& 0b00111000#8 != 0#8
    || ((w &&& 0b11000000#8 == 0b00000000#8 || w &&& 0b11000000#8 == 0b11000000#8) && w &&& 0b00000111#8 != 0#8))

end Sys2Proof
end

