-- ==== Sys2Proof/Decode.lean ====
section
/-! DEFINITION. Decoding a stimulus word (R51 to R57, R64) and, after it, the encoder. Decoding is total on all 256
words and rejects by name (R55, R56). -/

namespace Sys2Proof

/-- Why a stimulus word is illegal (R55). -/
inductive Illegal where
  /-- `rsv ≠ 000`. -/
  | reservedBits
  /-- `op = 00` (NOP) with `arg ≠ 000`. -/
  | nopArgument
  /-- `op = 11` (RESET) with `arg ≠ 000`. -/
  | resetArgument
deriving DecidableEq, Repr

/-- What a stimulus word decodes to (R56): exactly one operation, or Illegal. -/
inductive Decoded where
  | op (i : Instr)
  | illegal (why : Illegal)
deriving DecidableEq, Repr

/-- `op = w[7:6]` (R51). -/
def opField (w : StimulusWord) : BitVec 2 := w.extractLsb' 6 2

/-- `rsv = w[5:3]` (R51). -/
def rsvField (w : StimulusWord) : BitVec 3 := w.extractLsb' 3 3

/-- `arg = w[2:0]`, the operand, used unchanged (R51, R57). -/
def argField (w : StimulusWord) : ColBits := w.extractLsb' 0 3

/-- The decoder of R56. -/
def decode (w : StimulusWord) : Decoded :=
  if rsvField w != 0b000#3 then .illegal .reservedBits
  else match opField w with
    | 0b00#2 => if argField w == 0b000#3 then .op .nop else .illegal .nopArgument
    | 0b01#2 => .op (.tick (argField w))
    | 0b10#2 => .op (.edge (argField w))
    | 0b11#2 => if argField w == 0b000#3 then .op .reset else .illegal .resetArgument

/-- The operation a word decodes to, if it is legal. -/
def Decoded.toOption : Decoded → Option Instr
  | .op i => some i
  | .illegal _ => none

/-- A stimulus word from its three fields, `{op, rsv, arg}` (R14, R51). -/
def stimulusWord (op : BitVec 2) (rsv arg : BitVec 3) : StimulusWord := (op ++ rsv) ++ arg

/-- The word of an operation (R51 to R54): `0x00`, `0x40 | cols`, `0x80 | mask`, `0xC0`. -/
def encode : Instr → StimulusWord
  | .nop => stimulusWord 0b00#2 0b000#3 0b000#3
  | .tick cols => stimulusWord 0b01#2 0b000#3 cols
  | .edge mask => stimulusWord 0b10#2 0b000#3 mask
  | .reset => stimulusWord 0b11#2 0b000#3 0b000#3

/-- The host's view of the decoder. Every operation is one 8-bit word (R64), so a row has at most eight bits and its
number is the word itself. -/
def decodeTableWord (nbits w : Nat) : Option Instr :=
  if nbits ≤ 8 ∧ w < 2 ^ 8 then (decode (BitVec.ofNat 8 w)).toOption else none

end Sys2Proof
end

