-- ==== Sys2Proof/Config.lean ====
section
/-! DEFINITION. The parameters of a block (R7, R9, R10, R11), fixed while it runs (R18, R28), and the named arrival
priority of D13. `State` holds one `Config` so that every statement over all states speaks of every configuration.
The derived constants (`CNT_MAX`, `LONG_NEAR`) and the legality test (R12, R13) are in Machine/Parameters.lean. There is
no free value: 93_implementation_defined.md models no behaviour as `any value`. -/

namespace Sys2Proof

/-- The configuration of a block. The defaults are the spec's: 25, 10 and 3 (R7, D24), `W = 8` (R9, D5),
`RESET_ROW = 0` (R10, D7), 100 Hz (R11, D29). -/
structure Config where
  /-- `LONG_CLICK_THRESHOLD` (R7): the count at which a press is declared long. -/
  longClickThreshold : Nat := 25
  /-- `SHORT_CLICK_THRESHOLD` (R7): exclusive upper bound of a short count. -/
  shortClickThreshold : Nat := 10
  /-- `MAX_DEVIATION` (R7): counter difference tolerated when pairing a long chord. -/
  maxDeviation : Nat := 3
  /-- `COUNTER_WIDTH`, written `W` (R9). -/
  counterWidth : Nat := 8
  /-- `RESET_ROW` (R10): the row driven low after reset. -/
  resetRow : Row := 0
  /-- `TICK_HZ` (R11): timing only. No operation reads it. -/
  tickHz : Nat := 100
deriving DecidableEq, Repr

/-- The configuration at the spec's defaults. -/
def Config.reference : Config := {}

/-- `ARRIVAL_PRIORITY` (D13): which of a tick and an edge that wait together goes first. The block has none (R101):
a claim that assumes one names it. -/
inductive ArrivalPriority where
  | tickFirst
  | edgeFirst
deriving DecidableEq, Repr

end Sys2Proof
end

