-- ==== Sys2Proof/Machine/Parameters.lean ====
section
/-! DEFINITION. The derived constants of a configuration (R8, R9), the test that it is legal (R12,
R13), the row pattern (R22, R23, R66), key indices and the scan order (R16, R38), and the symbol table (R17, R61). -/

namespace Sys2Proof.Machine

/-- `CNT_MAX = 2^W − 1` (R9). -/
def cntMax (c : Config) : Nat := 2 ^ c.counterWidth - 1

/-- `LONG_NEAR = LONG_CLICK_THRESHOLD − MAX_DEVIATION` (R8). R12 keeps it from being negative. -/
def longNear (c : Config) : Nat := c.longClickThreshold - c.maxDeviation

/-- The four constraints of R12. -/
def meetsR12 (c : Config) : Bool :=
  decide (c.longClickThreshold < cntMax c) && decide (1 ≤ c.shortClickThreshold)
    && decide (c.maxDeviation ≤ c.longClickThreshold) && decide (1 ≤ c.longClickThreshold)

/-- R13: a counter that has reached `CNT_MAX` answers the test `< SHORT_CLICK_THRESHOLD` as every larger value would,
which is to say that `CNT_MAX` is not below that threshold (DEDUCED, log entry 10, safe). -/
def shortInRange (c : Config) : Bool := decide (c.shortClickThreshold ≤ cntMax c)

/-- A legal configuration: it meets R12 ("legal only if"), and no report depends on its width (R13). -/
def configLegal (c : Config) : Bool := meetsR12 c && shortInRange c

/-- `~(1 << r) & 0b1111` (R23, R66): row `r` low, the other three high. The width cuts to four bits. -/
def rowPattern (r : Row) : RowBits := ~~~(1#4 <<< r.val)

/-- Rows `0..3` in ascending order. -/
def allRows : List Row := [0, 1, 2, 3]

/-- Columns `0..2` in ascending order. -/
def allCols : List Col := [0, 1, 2]

/-- The scan order of R16: row-major, `(0,0), (0,1), (0,2), (1,0), …, (3,2)`. -/
def scanOrder : List Key := allRows.flatMap fun r => allCols.map fun c => ⟨r, c⟩

/-- `first K in scan_order where P(K)`, or none (R15, R16). -/
def firstInScan (p : Key → Bool) : Option Key := scanOrder.find? p

/-- The key index `k = 3·r + c` (R38). -/
def keyIndex (k : Key) : Nat := 3 * k.row.val + k.col.val

/-- The key of an index, `r = k div 3`, `c = k mod 3`. Indices 12 and above name no key (R38). -/
def keyOfIndex (n : Nat) : Option Key :=
  if n < 12 then some ⟨Fin.ofNat 4 (n / 3), Fin.ofNat 3 (n % 3)⟩ else none

/-- `SYM` (R17), read row by row: `1 2 3 / 4 5 6 / 7 8 9 / * 0 #`. -/
def symTable : Vector (Vector Char 3) 4 :=
  #v[#v['1', '2', '3'], #v['4', '5', '6'], #v['7', '8', '9'], #v['*', '0', '#']]

/-- `SYM[r][c]` (R17). -/
def sym (k : Key) : Char := symTable[k.row][k.col]

/-- The ASCII code of a key's symbol (R61; PRESUMED, log entry 14, safe). -/
def symByte (k : Key) : BitVec 8 := BitVec.ofNat 8 (sym k).toNat

end Sys2Proof.Machine
end

