-- ==== Sys2Proof/Machine/Report.lean ====
section
/-! DEFINITION. Report events: the record the block emits (R58 to R60, R96), its 10-bit word, and the call the Event
Sink receives (R97). -/

namespace Sys2Proof.Machine

/-- One report event record (R59, R96). The first key is `k1`. The second, of a chord, is `k2`. -/
inductive Event where
  | singleShort (k1 : Key)
  | chordShort (k1 k2 : Key)
  | singleLong (k1 : Key)
  | chordLong (k1 k2 : Key)
deriving DecidableEq, Repr

/-- The call the Event Sink receives (R97), with the printable symbols of the keys. -/
inductive SinkCall where
  | singleShort (s1 : Char)
  | chordShort (s1 s2 : Char)
  | singleLong (s1 : Char)
  | chordLong (s1 s2 : Char)
deriving DecidableEq, Repr

/-- R60: the two keys of a chord are different. -/
def eventWellFormed : Event → Bool
  | .singleShort _ => true
  | .chordShort k1 k2 => k1 != k2
  | .singleLong _ => true
  | .chordLong k1 k2 => k1 != k2

/-- The 4-bit field of a key (R58): its index. -/
def keyField (k : Key) : BitVec 4 := BitVec.ofNat 4 (keyIndex k)

/-- `{kind, k1, k2}` (R58). -/
def eventFields (kind : BitVec 2) (k1 k2 : BitVec 4) : EventWord := (kind ++ k1) ++ k2

/-- The event word (R58, R59), with `k2 = 0xF` for the single kinds. -/
def eventWord : Event → EventWord
  | .singleShort k1 => eventFields 0b00#2 (keyField k1) 0xF#4
  | .chordShort k1 k2 => eventFields 0b01#2 (keyField k1) (keyField k2)
  | .singleLong k1 => eventFields 0b10#2 (keyField k1) 0xF#4
  | .chordLong k1 k2 => eventFields 0b11#2 (keyField k1) (keyField k2)

/-- A single event from its two key fields: `k2` is `0xF` (R58, R60). -/
def singleOfFields (mk : Key → Event) (k1 : Option Key) (k2 : BitVec 4) : Option Event :=
  if k2 = 0xF#4 then k1.map mk else none

/-- A chord event from its two keys: they exist and differ (R60). -/
def chordOfFields (mk : Key → Key → Event) : Option Key → Option Key → Option Event
  | some a, some b => if a = b then none else some (mk a b)
  | _, _ => none

/-- The event a 10-bit word stands for, or none for a word the block never emits (R60). -/
def eventOfWord (w : EventWord) : Option Event :=
  let k1 := keyOfIndex (w.extractLsb' 4 4).toNat
  let k2 := w.extractLsb' 0 4
  match w.extractLsb' 8 2 with
  | 0b00#2 => singleOfFields .singleShort k1 k2
  | 0b01#2 => chordOfFields .chordShort k1 (keyOfIndex k2.toNat)
  | 0b10#2 => singleOfFields .singleLong k1 k2
  | 0b11#2 => chordOfFields .chordLong k1 (keyOfIndex k2.toNat)

/-- The sink call of an event (R97): the symbols in the argument order of the record. -/
def sinkCall : Event → SinkCall
  | .singleShort k1 => .singleShort (sym k1)
  | .chordShort k1 k2 => .chordShort (sym k1) (sym k2)
  | .singleLong k1 => .singleLong (sym k1)
  | .chordLong k1 k2 => .chordLong (sym k1) (sym k2)

/-- The single quote, by its code (a literal of it is awkward to screen). -/
def quoteChar : Char := Char.ofNat 39

/-- A symbol between single quotes. -/
def quoted (c : Char) : List Char := [quoteChar, c, quoteChar]

/-- The printed form of an event (R62): `kind('s1')` or `kind('s1','s2')`. -/
def printCall : SinkCall → List Char
  | .singleShort a => "single_short(".toList ++ quoted a ++ [')']
  | .chordShort a b => "chord_short(".toList ++ quoted a ++ [','] ++ quoted b ++ [')']
  | .singleLong a => "single_long(".toList ++ quoted a ++ [')']
  | .chordLong a b => "chord_long(".toList ++ quoted a ++ [','] ++ quoted b ++ [')']

end Sys2Proof.Machine
end

