-- ==== Sys2Proof/Machine/State.lean ====
section
/-! DEFINITION. The state of the block (R18): the counter table and the row output register. With them stand the
configuration (a parameter of the model, R18), the input sequence the environment gives (R101) and the output event
sequence (R96), which the model keeps as plain data because a step is a function of the state. -/

namespace Sys2Proof.Machine

/-- The state of a run. -/
structure State where
  /-- The model's own (DESIGN CHOICE, log entry 1, safe): the configuration of this block. No operation changes it
  (R18, R28). -/
  cfg : Config
  /-- `CNT`, the activation counter table, 4 × 3 (R19). A counter is a natural number in `0..CNT_MAX`; that it stays
  in that range is an invariant (Safety.lean; DESIGN CHOICE, log entry 4, safe). -/
  cnt : Vector (Vector Nat 3) 4
  /-- `ROW_OUT[3:0]`, active low (R22). -/
  rowOut : RowBits
  /-- The model's own (DEDUCED, log entry 2, safe): the stimulus words the environment still has to deliver, next
  first (R51, R101). The block itself holds no pending operation (R102). -/
  stimulus : List StimulusWord
  /-- The model's own (DEDUCED, log entry 3, safe): the output event sequence, oldest first (R96). It is the observation, and no operation reads
  it (R18). -/
  events : List Event
deriving DecidableEq, Repr

/-- The block faults never: no operation raises an exception, traps, faults or stops (R111), so this type has no
constructor. -/
inductive Fault where
deriving DecidableEq, Repr

/-- Why a step has no meaning. -/
inductive Refusal where
  /-- An instruction with no meaning yet. No arm of `exec` raises it: every operation has its meaning. Safe. -/
  | notModelled (mnemonic : String)
  /-- Raised by `admitNext` (Machine/EventArbiter.lean) when the next stimulus word is illegal (R55, R113): the model
  gives the word no meaning, changes no state and emits nothing. Safe. -/
  | illegalStimulus (word : StimulusWord) (why : Illegal)
  /-- Raised by `admitNext` when the configuration breaks a constraint of R12. Safe. -/
  | illegalConfiguration
  /-- Raised by `admitNext` when the configuration meets R12 and its `SHORT_CLICK_THRESHOLD` lies above `CNT_MAX`, so
  that reports would depend on the width, which R13 says no report does (log entry 10). Safe. -/
  | shortThresholdAboveCounterRange
  /-- Raised by TICK when `ROW_OUT` does not have exactly one low bit, so that `cur_row` does not exist. R24 says no
  operation reaches such a state. Safe. -/
  | noCurrentRow
deriving DecidableEq, Repr

/-- The phase of a key (R27): derived from its counter, not a piece of state. -/
inductive Phase where
  | idle
  | counting
  | longFired
deriving DecidableEq, Repr

/-- What the outside sees of the block (R30): the row lines and the report events. -/
structure Observation where
  rowN : RowBits
  reports : List Event
deriving DecidableEq, Repr

/-- All twelve counters at 0 (R20). -/
def zeroTable : Vector (Vector Nat 3) 4 := Vector.replicate 4 (Vector.replicate 3 0)

/-- The state right after power-on or reset of a block with configuration `c` (R105, R107, R124), with no event
emitted and no stimulus given yet. -/
def State.resetWith (c : Config) : State :=
  { cfg := c, cnt := zeroTable, rowOut := rowPattern c.resetRow, stimulus := [], events := [] }

/-- The state right after reset at the spec's default configuration (DESIGN CHOICE, log entry 8, unsafe where the real
block has another). -/
def State.reset : State := State.resetWith Config.reference

end Sys2Proof.Machine
end

