-- ==== Sys2Proof/Machine/Ops.lean ====
section
/-! DEFINITION. The primitives of R15 over the state: reading and writing a counter and the row output register,
`row_active`, `cur_row`, `emit`, and what the outside observes. The block takes no exception (R111, R116, R117), so
there is no entry and no return here. -/

namespace Sys2Proof.Machine

/-- `CNT[r][c]` (R15, R39): a whole counter, no side effect. -/
def State.count (s : State) (k : Key) : Nat := s.cnt[k.row][k.col]

/-- `CNT[r][c] <- v` (R15, R39): one whole counter. -/
def State.setCount (s : State) (k : Key) (v : Nat) : State :=
  { s with cnt := s.cnt.set k.row (s.cnt[k.row].set k.col v) }

/-- `ROW_OUT <- v` (R15). -/
def State.setRowOut (s : State) (v : RowBits) : State := { s with rowOut := v }

/-- `emit` (R96): append one event record to the output event sequence. -/
def State.emit (s : State) (e : Event) : State := { s with events := s.events ++ [e] }

/-- `row_active(r) = (ROW_OUT[r] = 0)` (R32): the readback of the block's own register. -/
def rowActive (s : State) (r : Row) : Bool := !s.rowOut[r]

/-- `cur_row` (R24): the row whose line is low, where exactly one is. -/
def curRow (s : State) : Option Row :=
  match allRows.filter (rowActive s) with
  | [r] => some r
  | _ => none

/-- `row_n[3:0]`, equal to `ROW_OUT` at every instant (R30, R31). -/
def rowN (s : State) : RowBits := s.rowOut

/-- The outputs of the block (R30). The counters are not among them (R34). -/
def observe (s : State) : Observation := ⟨rowN s, s.events⟩

/-- What the Event Sink has received so far, in order (R97, R98). -/
def sinkCalls (s : State) : List SinkCall := s.events.map sinkCall

end Sys2Proof.Machine
end

