-- ==== Sys2Proof/Machine/ControlOps.lean ====
section
/-! DEFINITION. RESET and NOP (R105, R106). -/

namespace Sys2Proof.Machine

/-- The reset of the block (R105): every counter 0, `ROW_OUT` at the pattern of `RESET_ROW`. The events already
emitted stay, and so do the configuration and the input the environment still has to give. -/
def resetBlock (s : State) : State :=
  { s with cnt := zeroTable, rowOut := rowPattern s.cfg.resetRow }

/-- RESET (R105). -/
def execReset (s : State) : Host.Outcome State Fault Refusal := .next (resetBlock s)

/-- NOP (R106): no state change. -/
def execNop (s : State) : Host.Outcome State Fault Refusal := .next s

end Sys2Proof.Machine
end

