-- ==== Sys2Proof/Machine/Flags.lean ====
section
/-! DEFINITION. The block has no flags (R26). Here are the threshold comparisons, whose outcomes are used within the
operation that makes them and kept nowhere, and the phase derived from a counter (R27). -/

namespace Sys2Proof.Machine

/-- `0 < v < SHORT_CLICK_THRESHOLD`, both bounds strict (R87, R89). -/
def isShortCount (c : Config) (v : Nat) : Bool := decide (0 < v) && decide (v < c.shortClickThreshold)

/-- `v = LONG_CLICK_THRESHOLD`, equal and not greater (R79). -/
def isLongTrigger (c : Config) (v : Nat) : Bool := decide (v = c.longClickThreshold)

/-- `v ≥ LONG_NEAR` (R80). -/
def isLongNear (c : Config) (v : Nat) : Bool := decide (longNear c ≤ v)

/-- The phase of a key, a function of its counter alone (R27). -/
def phase (s : State) (k : Key) : Phase :=
  if s.count k = 0 then .idle
  else if s.count k < s.cfg.longClickThreshold then .counting
  else .longFired

end Sys2Proof.Machine
end

