-- ==== Sys2Proof/Machine/Operands.lean ====
section
/-! DEFINITION. The one operand form (R57): a 3-bit column vector, read bit by bit. -/

namespace Sys2Proof.Machine

/-- `v[c]`: the bit of column `c`, unchanged (R14, R40, R53, R54, R57). -/
def colBit (v : ColBits) (c : Col) : Bool := v[c]

end Sys2Proof.Machine
end

