-- ==== Sys2Proof/Machine/EdgeSampler.lean ====
section
/-! DEFINITION. edge_sampler and long_press_detector: the EDGE operation (R71 to R85). -/

namespace Sys2Proof.Machine

/-- `sat_inc(v)` (R78). -/
def satInc (c : Config) (v : Nat) : Nat := if v = cntMax c then cntMax c else v + 1

/-- The partner scan of the long-press detector (R80): the first key in scan order, other than `k`, whose counter is
at least `LONG_NEAR`. It reads only counters. -/
def longPartner (k : Key) (s : State) : Option Key :=
  firstInScan fun k2 => k2 != k && isLongNear s.cfg (s.count k2)

/-- The long-press report (R81). No counter changes (R82). -/
def longPress (k : Key) (s : State) : State :=
  match longPartner k s with
  | some p => s.emit (.chordLong k p)
  | none => s.emit (.singleLong k)

/-- One qualifying edge of key `k`: increment, then at once the long-press test on the new value (R76, R77, R79). -/
def creditKey (k : Key) (s : State) : State :=
  let v := satInc s.cfg (s.count k)
  let s1 := s.setCount k v
  if isLongTrigger s1.cfg v then longPress k s1 else s1

/-- One set column of an edge event: every active row is credited, rows ascending (R73). -/
def creditColumn (s : State) (c : Col) : State :=
  allRows.foldl (fun s r => if rowActive s r then creditKey ⟨r, c⟩ s else s) s

/-- The columns of one edge event, ascending, each finished before the next begins (R72). -/
def sampleEdges (mask : ColBits) (s : State) : State :=
  allCols.foldl (fun s c => if colBit mask c then creditColumn s c else s) s

/-- EDGE (R71). `ROW_OUT` is not written, and no level is checked (R75). -/
def execEdge (mask : ColBits) (s : State) : Host.Outcome State Fault Refusal :=
  .next (sampleEdges mask s)

end Sys2Proof.Machine
end

