-- ==== Sys2Proof/Machine/ReleaseClassifier.lean ====
section
/-! DEFINITION. release_classifier and the chord/single disambiguator: the release phase of a TICK (R86 to R95). -/

namespace Sys2Proof.Machine

/-- The partner scan for a short chord (R89): the first key in scan order, other than `k`, with
`0 < CNT < SHORT_CLICK_THRESHOLD`. -/
def shortPartner (k : Key) (s : State) : Option Key :=
  firstInScan fun k2 => k2 != k && isShortCount s.cfg (s.count k2)

/-- The release-check of key `k` (R87): idle (R88), short chord (R90), single short (R91), long or dead zone
(R92). The partner is cleared whatever its own state (R94). -/
def releaseCheck (k : Key) (s : State) : State :=
  if s.count k = 0 then s
  else if isShortCount s.cfg (s.count k) then
    match shortPartner k s with
    | some p => ((s.emit (.chordShort k p)).setCount k 0).setCount p 0
    | none => (s.emit (.singleShort k)).setCount k 0
  else s.setCount k 0

/-- The release phase of row `r` (R86): columns ascending, each seeing the clears made before it. An asserted column
is skipped (R93). -/
def releasePhase (r : Row) (cols : ColBits) (s : State) : State :=
  allCols.foldl (fun s c => if colBit cols c then s else releaseCheck ⟨r, c⟩ s) s

end Sys2Proof.Machine
end

