-- ==== Sys2Proof/Machine/StrobeSequencer.lean ====
section
/-! DEFINITION. strobe_sequencer: the row advance (R66 to R70) and the TICK operation (R65). -/

namespace Sys2Proof.Machine

/-- The row after row `r`, modulo 4 (R66, R67). -/
def nextRow (r : Row) : Row := r + 1

/-- `advance()` from row `r` (R66). It reads nothing but the row (R68). -/
def advanceFrom (r : Row) (s : State) : State := s.setRowOut (rowPattern (nextRow r))

/-- TICK (R65): the release phase of the row being left, then the row advance. Where `ROW_OUT` does not have exactly
one low bit there is no `cur_row`; R24 says no operation reaches such a state, and the model refuses it (DESIGN
CHOICE, log entry 5, safe). -/
def execTick (cols : ColBits) (s : State) : Host.Outcome State Fault Refusal :=
  match curRow s with
  | some r => .next (advanceFrom r (releasePhase r cols s))
  | none => .refused .noCurrentRow

end Sys2Proof.Machine
end

