-- ==== Sys2Proof/Machine/Dispatch.lean ====
section
/-! DEFINITION. One arm per operation, each one direct call of its meaning. -/

namespace Sys2Proof.Machine

def exec (i : Instr) (s : State) : Host.Outcome State Fault Refusal :=
  match i with
  | .nop => Sys2Proof.Machine.execNop s
  | .tick cols => Sys2Proof.Machine.execTick cols s
  | .edge mask => Sys2Proof.Machine.execEdge mask s
  | .reset => Sys2Proof.Machine.execReset s

end Sys2Proof.Machine
end

