-- ==== Sys2Proof/Machine/EventArbiter.lean ====
section
/-! DEFINITION. event_arbiter: it admits one operation at a time from the input sequence the environment gives (R100
to R103). The dispatch of reports is `State.emit` (R96) and `sinkCalls` (R97). It has no state of its own. -/

namespace Sys2Proof.Machine

/-- What the arbiter does next. -/
inductive Admission where
  /-- No operation has arrived: the block waits (R45, R123). -/
  | wait
  /-- The model gives no meaning (R12, R13, R113). -/
  | refuse (r : Refusal)
  /-- This operation runs, in the state in which its word has been taken from the input (R103). -/
  | run (i : Instr) (s : State)
deriving DecidableEq, Repr

/-- The first word is taken from the input sequence. -/
def State.afterWord (s : State) : State := { s with stimulus := s.stimulus.tail }

/-- Admit the next operation (R100): a configuration that breaks R12 or R13 is refused, an empty input waits, an illegal
word is refused (R113), and any other word is its operation, taken exactly once (R103). -/
def admitNext (s : State) : Admission :=
  if configLegal s.cfg then
    match s.stimulus with
    | [] => .wait
    | w :: _ =>
      match decode w with
      | .op i => .run i s.afterWord
      | .illegal why => .refuse (.illegalStimulus w why)
  else .refuse (if meetsR12 s.cfg then .shortThresholdAboveCounterRange else .illegalConfiguration)

/-- The column samples of the TICKs of a sequence of operations, in order. -/
def tickStream (ops : List Instr) : List ColBits :=
  ops.filterMap fun i => match i with | .tick cols => some cols | .nop => none | .edge _ => none | .reset => none

/-- The masks of the EDGEs of a sequence of operations, in order. -/
def edgeStream (ops : List Instr) : List ColBits :=
  ops.filterMap fun i => match i with | .edge mask => some mask | .nop => none | .tick _ => none | .reset => none

/-- R101: a sequence is an admissible input for a stream of ticks and a stream of edge events when it interleaves
them, each in its own order, with none lost and none merged (R103). RESET and NOP may stand anywhere (R100, R120). -/
def admissible (ticks edges : List ColBits) (ops : List Instr) : Bool :=
  tickStream ops == ticks && edgeStream ops == edges

/-- The two operations of a tick and an edge event that wait together, under a named arrival priority (D13). -/
def admitBoth (p : ArrivalPriority) (cols mask : ColBits) : List Instr :=
  match p with
  | .tickFirst => [.tick cols, .edge mask]
  | .edgeFirst => [.edge mask, .tick cols]

end Sys2Proof.Machine
end

