-- ==== Sys2Proof/Machine/Step.lean ====
section
/-! DEFINITION. One step: the arbiter admits the next operation and it runs to completion (R42, R100). -/

namespace Sys2Proof.Machine

/-- One step of a run. With no operation arrived the block waits, and nothing changes (R45; DEDUCED, log
entry 2, safe). -/
def step (s : State) : Host.Outcome State Fault Refusal :=
  match admitNext s with
  | .wait => .next s
  | .refuse r => .refused r
  | .run i t => exec i t

/-- `s` with one more word at the front of the environment's input, so that the next step takes it. -/
def State.withFetchWord (s : State) (nbits w : Nat) : State :=
  { s with stimulus := BitVec.ofNat 8 (w % 2 ^ nbits) :: s.stimulus }

end Sys2Proof.Machine
end

