-- ==== Sys2Proof/Machine/Assembler.lean ====
section
/-! DEFINITION. The assembler syntax of stimulus programs (R62, R63): `RESET`, `NOP`, `TICK <arg>`, `EDGE <arg>`,
comments, and the pseudo-instruction REPEAT, which is expanded textually. Text is a list of characters. White space
of any kind separates tokens (DESIGN CHOICE, log entry 13, safe). -/

namespace Sys2Proof.Machine

/-- A token of the text: a maximal run of characters that are no white space, no brace and no comment. -/
abbrev Token := List Char

/-- The opening brace of REPEAT, by its code. -/
def openBrace : Char := Char.ofNat 123

/-- The closing brace of REPEAT, by its code. -/
def closeBrace : Char := Char.ofNat 125

/-- A token in front of others, unless it is empty. -/
def flush (t : Token) (ts : List Token) : List Token := if t.isEmpty then ts else t :: ts

/-- Tokens of a text. `note` says that a comment is open: text from `;` to the end of the line (R62). -/
def lexFrom (note : Bool) (cur : Token) : List Char → List Token
  | [] => flush cur []
  | c :: cs =>
    if c = '\n' then flush cur (lexFrom false [] cs)
    else if note then lexFrom true cur cs
    else if c = ';' then flush cur (lexFrom true [] cs)
    else if c = ' ' || c = '\t' || c = '\r' then flush cur (lexFrom false [] cs)
    else if c = openBrace || c = closeBrace then flush cur ([c] :: lexFrom false [] cs)
    else lexFrom false (cur ++ [c]) cs

/-- The tokens of a text. -/
def lex (text : List Char) : List Token := lexFrom false [] text

/-- The value of a decimal digit. -/
def digit (c : Char) : Option Nat :=
  if '0' ≤ c ∧ c ≤ '9' then some (c.toNat - '0'.toNat) else none

/-- A decimal number of at least one digit. -/
def decimal (t : Token) : Option Nat :=
  if t.isEmpty then none else t.foldl (fun n c => n.bind fun n => (digit c).map fun d => 10 * n + d) (some 0)

/-- A binary digit as a bit. -/
def binaryDigit (c : Char) : Option Bool := if c = '0' then some false else if c = '1' then some true else none

/-- `<arg>` (R62): `0b` and exactly three binary digits, most significant first, or a decimal number `0..7`. -/
def operand (t : Token) : Option ColBits :=
  match t with
  | ['0', 'b', x, y, z] => do
    let b2 ← binaryDigit x
    let b1 ← binaryDigit y
    let b0 ← binaryDigit z
    some (BitVec.ofBool b2 ++ BitVec.ofBool b1 ++ BitVec.ofBool b0)
  | _ => do
    let n ← decimal t
    if n ≤ 7 then some (BitVec.ofNat 3 n) else none

/-- Upper-case mnemonics (R62, R63). -/
def resetWord : Token := ['R', 'E', 'S', 'E', 'T']
def nopWord : Token := ['N', 'O', 'P']
def tickWord : Token := ['T', 'I', 'C', 'K']
def edgeWord : Token := ['E', 'D', 'G', 'E']
def repeatWord : Token := ['R', 'E', 'P', 'E', 'A', 'T']

/-- The lines of a REPEAT written `n` times in a row (R63). -/
def repeated (n : Nat) (ops : List Instr) : List Instr := (List.replicate n ops).flatten

/-- What the assembler reads next. -/
inductive Expect where
  /-- The start of a line, or the closing brace of a REPEAT. -/
  | line
  /-- The operand of a TICK. -/
  | tickOperand
  /-- The operand of an EDGE. -/
  | edgeOperand
  /-- The count of a REPEAT. -/
  | count
  /-- The opening brace of a REPEAT with this count. -/
  | brace (n : Nat)
deriving DecidableEq, Repr

/-- Where the assembler stands: what it reads next, for each REPEAT still open its count and the operations before
it, and the operations since the innermost one opened. -/
structure AsmState where
  want : Expect
  outer : List (Nat × List Instr)
  done : List Instr
deriving DecidableEq, Repr

/-- An operation has been read. -/
def AsmState.add (a : AsmState) (i : Instr) : AsmState := { a with want := .line, done := a.done ++ [i] }

/-- The start of a line (R62, R63), or the end of a REPEAT, whose lines are then written `n` times. -/
def asmLine (a : AsmState) (t : Token) : Option AsmState :=
  if t = resetWord then some (a.add .reset)
  else if t = nopWord then some (a.add .nop)
  else if t = tickWord then some { a with want := .tickOperand }
  else if t = edgeWord then some { a with want := .edgeOperand }
  else if t = repeatWord then some { a with want := .count }
  else if t = [closeBrace] then
    match a.outer with
    | (n, before) :: more => some ⟨.line, more, before ++ repeated n a.done⟩
    | [] => none
  else none

/-- One token. A missing, extra or out-of-range operand, an unknown word, a count below 1 or a brace out of place is
rejected (R62, R63). -/
def asmToken (a : AsmState) (t : Token) : Option AsmState :=
  match a.want with
  | .line => asmLine a t
  | .tickOperand => (operand t).map fun v => a.add (.tick v)
  | .edgeOperand => (operand t).map fun v => a.add (.edge v)
  | .count => (decimal t).bind fun n => if 1 ≤ n then some { a with want := .brace n } else none
  | .brace n => if t = [openBrace] then some ⟨.line, (n, a.done) :: a.outer, []⟩ else none

/-- Assemble the tokens that are left. The text ends at the start of a line with no REPEAT open. -/
def assembleTokens (a : AsmState) : List Token → Option (List Instr)
  | [] => if a.want = .line ∧ a.outer = [] then some a.done else none
  | t :: ts => (asmToken a t).bind fun b => assembleTokens b ts

/-- The operations of a program text, or none where an assembler rejects it (R62, R63). -/
def assemble (text : List Char) : Option (List Instr) := assembleTokens ⟨.line, [], []⟩ (lex text)

/-- The stimulus words of a program text. -/
def assembleWords (text : List Char) : Option (List StimulusWord) := (assemble text).map (List.map encode)

/-- The binary form of an operand (R62): `0b` and three digits, most significant first. -/
def printOperand (v : ColBits) : Token :=
  let bit (b : Bool) : Char := if b then '1' else '0'
  ['0', 'b', bit v[2], bit v[1], bit v[0]]

/-- The text of an operation (R62). -/
def printInstr : Instr → List Char
  | .reset => resetWord
  | .nop => nopWord
  | .tick cols => tickWord ++ [' '] ++ printOperand cols
  | .edge mask => edgeWord ++ [' '] ++ printOperand mask

end Sys2Proof.Machine
end

