-- ==== Sys2Proof/Machine/Environment.lean ====
section
/-! DEFINITION. The reference environment (R130 to R134), non-normative: a key matrix, the column levels and falling
edges it gives, and the operations they arrive as. It is no part of the block, and no operation reads it. -/

namespace Sys2Proof.Machine

/-- `pressed(r, c)` for every key (R130). -/
structure KeyMatrix where
  closed : Vector (Vector Bool 3) 4
deriving DecidableEq, Repr

/-- `pressed(r, c)` (R130). -/
def pressed (m : KeyMatrix) (k : Key) : Bool := m.closed[k.row][k.col]

/-- The levels of the columns while row `r` is current: column `c` is asserting exactly when `pressed(r, c)` (R130). -/
def columnLevels (m : KeyMatrix) (r : Row) : ColBits :=
  BitVec.ofBool (pressed m ⟨r, 2⟩) ++ BitVec.ofBool (pressed m ⟨r, 1⟩) ++ BitVec.ofBool (pressed m ⟨r, 0⟩)

/-- The columns whose level goes from 0 to 1 (R130): a falling edge of the line. -/
def fallingEdges (before after : ColBits) : ColBits := after &&& ~~~before

/-- The falling edges that the move from row `r` to the next row causes (R130). -/
def strobeEdges (m : KeyMatrix) (r : Row) : ColBits := fallingEdges (columnLevels m r) (columnLevels m (nextRow r))

/-- The falling edges on row `r` as the keys change from `m` to `m'` (R130). -/
def contactEdges (m m' : KeyMatrix) (r : Row) : ColBits := fallingEdges (columnLevels m r) (columnLevels m' r)

/-- The EDGE operation of a set of falling edges, if there is any. -/
def edgeOps (mask : ColBits) : List Instr := if mask = 0#3 then [] else [.edge mask]

/-- One tick of the environment with row `r` current (R130): the TICK samples the levels just before it, and the
edges it causes are delivered after it. -/
def strobeOps (m : KeyMatrix) (r : Row) : List Instr := .tick (columnLevels m r) :: edgeOps (strobeEdges m r)

/-- The operations of `n` ticks of the environment with the keys at rest, from row `r`. -/
def restOps (m : KeyMatrix) : Nat → Row → List Instr
  | 0, _ => []
  | n + 1, r => strobeOps m r ++ restOps m n (nextRow r)

/-- One row's active window in microseconds, `1 / TICK_HZ` rounded down (R134; for a positive `TICK_HZ`). -/
def windowMicros (c : Config) : Nat := 1000000 / c.tickHz

/-- One full strobe cycle in microseconds, `4 / TICK_HZ` rounded down (R134). -/
def cycleMicros (c : Config) : Nat := 4000000 / c.tickHz

/-- The time in which a held key gets `n` qualifying edges at one a cycle, in microseconds rounded down (R134). -/
def holdMicros (c : Config) (n : Nat) : Nat := 4000000 * n / c.tickHz

end Sys2Proof.Machine
end

