-- ==== Sys2Proof/Safety.lean ====
section
/-! DEFINITION. What a reachable state of the block satisfies, and what a run does, in the terms the statements use
(R12, R13, R19, R24, R60, R83). -/

namespace Sys2Proof.Machine

/-- R24: exactly one row line is low. -/
def OneRowLow (s : State) : Prop := ∃ r : Row, s.rowOut = rowPattern r

/-- R19: every counter holds a value in `0..CNT_MAX`. -/
def CountersInRange (s : State) : Prop := ∀ k : Key, s.count k ≤ cntMax s.cfg

/-- R60: every event emitted so far names keys as the event word allows. -/
def ReportsWellFormed (s : State) : Prop := ∀ e ∈ s.events, eventWellFormed e = true

/-- What holds in every state a run reaches. -/
structure Safe (s : State) : Prop where
  config : configLegal s.cfg = true
  row : OneRowLow s
  counters : CountersInRange s
  reports : ReportsWellFormed s

/-- `n` steps of the machine, stopping at the first refusal. -/
def runSteps (n : Nat) (s : State) : Host.Outcome State Fault Refusal := Host.Core.run Sys2Proof.core n s

/-- Operations run one after another (R100), stopping at the first refusal. No input is read and no configuration
tested: this is what the operations themselves do. -/
def runOps : List Instr → State → Host.Outcome State Fault Refusal
  | [], s => .next s
  | i :: ops, s =>
    match exec i s with
    | .next t => runOps ops t
    | .fault f => .fault f
    | .refused f => .refused f

/-- The events emitted between a state and a later one of the same run (R96). -/
def newEvents (s t : State) : List Event := t.events.drop s.events.length

/-- `K1`, the first key argument of an event. -/
def firstKey : Event → Key
  | .singleShort k1 => k1
  | .chordShort k1 _ => k1
  | .singleLong k1 => k1
  | .chordLong k1 _ => k1

/-- A short-press event (R95). -/
def isShortEvent : Event → Bool
  | .singleShort _ => true
  | .chordShort _ _ => true
  | .singleLong _ => false
  | .chordLong _ _ => false

/-- A long-press event (R85). -/
def isLongEvent : Event → Bool
  | .singleShort _ => false
  | .chordShort _ _ => false
  | .singleLong _ => true
  | .chordLong _ _ => true

/-- The long-press event of key `k`: the one that names it first (R81). -/
def isLongEventOf (k : Key) (e : Event) : Bool := isLongEvent e && decide (firstKey e = k)

/-- `ops` interleaves a stream of ticks and a stream of edge events (R101): each TICK and each EDGE of it is the next
one of its stream, no other is left over (R103), and RESET and NOP may stand anywhere (R100, R120). -/
inductive Interleaves : List ColBits → List ColBits → List Instr → Prop where
  | none : Interleaves [] [] []
  | tick {ticks edges ops} (cols : ColBits) : Interleaves ticks edges ops → Interleaves (cols :: ticks) edges (.tick cols :: ops)
  | edge {ticks edges ops} (mask : ColBits) : Interleaves ticks edges ops → Interleaves ticks (mask :: edges) (.edge mask :: ops)
  | nop {ticks edges ops} : Interleaves ticks edges ops → Interleaves ticks edges (.nop :: ops)
  | reset {ticks edges ops} : Interleaves ticks edges ops → Interleaves ticks edges (.reset :: ops)

/-- Two runs look alike (R13): they show the same row lines and reports, or they stop for the same reason. -/
def SameOutcome (a b : Host.Outcome State Fault Refusal) : Prop :=
  (∃ s t, a = .next s ∧ b = .next t ∧ observe s = observe t) ∨ ∃ f, a = .refused f ∧ b = .refused f

/-- No step of the first `n` clears the counter of `k`: none takes it from a nonzero value to 0 (R83). -/
def NoClear (k : Key) (n : Nat) (s : State) : Prop :=
  ∀ m u v, m < n → runSteps m s = .next u → runSteps (m + 1) s = .next v → u.count k ≠ 0 → v.count k ≠ 0

/-- Two states of blocks that differ in the counter width alone (R13). Each counter holds the same value in both, or
values that have both reached the smaller `CNT_MAX`. -/
structure SameUpToWidth (s t : State) : Prop where
  cfg : t.cfg = { s.cfg with counterWidth := t.cfg.counterWidth }
  rowOut : t.rowOut = s.rowOut
  stimulus : t.stimulus = s.stimulus
  events : t.events = s.events
  count : ∀ k, s.count k = t.count k
    ∨ (min (cntMax s.cfg) (cntMax t.cfg) ≤ s.count k ∧ min (cntMax s.cfg) (cntMax t.cfg) ≤ t.count k)

end Sys2Proof.Machine
end

