-- ==== Sys2Proof/Certificates/Slice0/Obligations.lean ====
section
/-! DEFINITION. The statements about the block. Each docstring names the rules it formalises. Premises of the form
`s.rowOut = rowPattern r` say that row `r` is the current row (R24); that every step keeps such a row is
`StepKeepsSafe`, and that reset gives one is `ResetIsSafe`. -/

open Sys2Proof Sys2Proof.Machine

/-! ## Parameters, keys and symbols -/

/-- R7, R8, R9, R10: the default thresholds, the derived constants, the default width and reset row. -/
def Obligations.ParametersAndDerivedConstants : Prop :=
  Config.reference.longClickThreshold = 25 ∧ Config.reference.shortClickThreshold = 10
    ∧ Config.reference.maxDeviation = 3 ∧ Config.reference.counterWidth = 8 ∧ Config.reference.resetRow = 0
    ∧ (∀ c : Config, longNear c = c.longClickThreshold - c.maxDeviation) ∧ longNear Config.reference = 22
    ∧ (∀ c : Config, cntMax c = 2 ^ c.counterWidth - 1)

/-- R16, R38: the scan order is row-major, which is the order of the key index, and indices 12 and above name no
key. -/
def Obligations.ScanOrderIsTheKeyIndexOrder : Prop :=
  scanOrder.map (fun k => (k.row.val, k.col.val)) =
      [(0, 0), (0, 1), (0, 2), (1, 0), (1, 1), (1, 2), (2, 0), (2, 1), (2, 2), (3, 0), (3, 1), (3, 2)]
    ∧ scanOrder.map keyIndex = List.range 12
    ∧ (∀ k : Key, keyIndex k = 3 * k.row.val + k.col.val ∧ keyOfIndex (keyIndex k) = some k)
    ∧ ∀ n, 12 ≤ n → keyOfIndex n = none

/-- R17: the symbol table, read row by row. -/
def Obligations.SymbolTable : Prop :=
  scanOrder.map sym = ['1', '2', '3', '4', '5', '6', '7', '8', '9', '*', '0', '#']

/-! ## Encoding -/

/-- The decoder table of 95_test_vectors.md section 2.1, one word for each family and each kind of illegal word. -/
def Obligations.DecodeOfSpecWords : Prop :=
  decode 0x00#8 = .op .nop ∧ decode 0x40#8 = .op (.tick 0b000#3) ∧ decode 0x45#8 = .op (.tick 0b101#3)
    ∧ decode 0x83#8 = .op (.edge 0b011#3) ∧ decode 0xC0#8 = .op .reset
    ∧ decode 0x01#8 = .illegal .nopArgument ∧ decode 0x48#8 = .illegal .reservedBits
    ∧ decode 0xC1#8 = .illegal .resetArgument

/-- R55: the legal words are exactly `0x00`, `0x40`–`0x47`, `0x80`–`0x87` and `0xC0`, and they are those whose
reserved field and unused argument are 0. -/
def Obligations.LegalWordsAreExactlyTheListedOnes : Prop :=
  ∀ w : StimulusWord,
    ((∃ i, decode w = .op i) ↔
      (w = 0x00#8 ∨ (0x40#8 ≤ w ∧ w ≤ 0x47#8) ∨ (0x80#8 ≤ w ∧ w ≤ 0x87#8) ∨ w = 0xC0#8))
    ∧ ((∃ i, decode w = .op i) ↔ StimulusWord.legal w = true)

/-- Decode and encode agree for every operation and every word (R51 to R57): a word decodes to an operation exactly
if it is that operation's word. -/
def Obligations.DecodeAndEncodeAgree : Prop :=
  ∀ (i : Instr) (w : StimulusWord), i.wellFormed = true → (decode w = .op i ↔ w = encode i)

/-- R58, R59, R60: the fields of an event word. `kind` is the report operation, `k1` the index of the first key,
and `k2` the index of the second key of a chord, or `0xF`. -/
def Obligations.EventWordFields : Prop :=
  ∀ (a b : Key),
    ((eventWord (.singleShort a)).extractLsb' 8 2 = 0b00#2 ∧ (eventWord (.chordShort a b)).extractLsb' 8 2 = 0b01#2
      ∧ (eventWord (.singleLong a)).extractLsb' 8 2 = 0b10#2 ∧ (eventWord (.chordLong a b)).extractLsb' 8 2 = 0b11#2)
    ∧ (∀ e ∈ [Event.singleShort a, .chordShort a b, .singleLong a, .chordLong a b],
        ((eventWord e).extractLsb' 4 4).toNat = 3 * a.row.val + a.col.val)
    ∧ (∀ e ∈ [Event.singleShort a, .singleLong a], (eventWord e).extractLsb' 0 4 = 0xF#4)
    ∧ ∀ e ∈ [Event.chordShort a b, .chordLong a b],
        ((eventWord e).extractLsb' 0 4).toNat = 3 * b.row.val + b.col.val

/-- R58, R60: an event word stands for one event and for no other, and the words that stand for none are those the
block never emits. -/
def Obligations.EventWordsRoundTrip : Prop :=
  (∀ e, eventWellFormed e = true → eventOfWord (eventWord e) = some e)
    ∧ ∀ w e, eventOfWord w = some e → eventWord e = w ∧ eventWellFormed e = true

/-- R97: for each event record the sink receives one call, in the order of emission, with the symbols of the keys in
the argument order of the record. -/
def Obligations.SinkReceivesOneCallForEachEvent : Prop :=
  ∀ (s : State) (a b : Key),
    sinkCalls (s.emit (.singleShort a)) = sinkCalls s ++ [.singleShort (sym a)]
      ∧ sinkCalls (s.emit (.chordShort a b)) = sinkCalls s ++ [.chordShort (sym a) (sym b)]
      ∧ sinkCalls (s.emit (.singleLong a)) = sinkCalls s ++ [.singleLong (sym a)]
      ∧ sinkCalls (s.emit (.chordLong a b)) = sinkCalls s ++ [.chordLong (sym a) (sym b)]

/-- R62: the text of a sequence of operations, one a line, assembles to that sequence. -/
def Obligations.AssemblerReadsWhatIsPrinted : Prop :=
  ∀ ops : List Instr, assemble (ops.flatMap fun i => printInstr i ++ ['\n']) = some ops

/-- R63: REPEAT expands to its lines written `n` times in a row, for every `n ≥ 1` given by its decimal numeral and
for every list of operations, and a count of 0 is rejected. That a REPEAT with no lines is accepted (`ops = []`) is the
model's choice, log entry 13. -/
def Obligations.RepeatExpandsItsLines : Prop :=
  ∀ (ops : List Instr),
    let text (n : Nat) : List Char :=
      repeatWord ++ [' '] ++ Nat.toDigits 10 n ++ [' ', openBrace, '\n']
        ++ ops.flatMap (fun i => printInstr i ++ ['\n']) ++ [closeBrace]
    (∀ n, 1 ≤ n → assemble (text n) = some (List.replicate n ops).flatten) ∧ assemble (text 0) = none

/-- R63: REPEAT may nest: an outer count repeats what the inner REPEAT and the lines around it expand to. -/
def Obligations.RepeatsMayNest : Prop :=
  ∀ (m n : Nat) (before inner after : List Instr), 1 ≤ m → 1 ≤ n → inner ≠ [] →
    let lines (ops : List Instr) : List Char := ops.flatMap (fun i => printInstr i ++ ['\n'])
    let opening (n : Nat) : List Char := repeatWord ++ [' '] ++ Nat.toDigits 10 n ++ [' ', openBrace, '\n']
    let closing : List Char := [closeBrace, '\n']
    assemble (opening m ++ lines before ++ (opening n ++ lines inner ++ closing) ++ lines after ++ closing) =
      some (List.replicate m (before ++ (List.replicate n inner).flatten ++ after)).flatten

/-! ## Reset -/

/-- R20, R23: after reset every counter is 0 and `ROW_OUT` is `~(1 << RESET_ROW) & 0b1111`, for every configuration,
and at the default `RESET_ROW = 0` it is `0b1110`. -/
def Obligations.ResetState : Prop :=
  (∀ c : Config, (∀ k, (State.resetWith c).count k = 0) ∧ (State.resetWith c).rowOut = ~~~(1#4 <<< c.resetRow.val))
    ∧ State.reset.rowOut = 0b1110#4

/-- The derived part of the reset state (10_state.md section 9; R124, which the spec marks as derived): the current
row is `RESET_ROW` and every key is idle. That `State.reset` has the default configuration is the model's choice
(log entry 8). -/
def Obligations.CurrentRowAndPhasesAfterReset : Prop :=
  (∀ c : Config, curRow (State.resetWith c) = some c.resetRow ∧ ∀ k, phase (State.resetWith c) k = .idle)
    ∧ State.reset = State.resetWith {} ∧ curRow State.reset = some 0

/-- The reset state of every legal configuration satisfies the invariant (R12, R19, R24, R60; R13, log entry 10). -/
def Obligations.ResetIsSafe : Prop :=
  (∀ c, configLegal c = true → Safe (State.resetWith c)) ∧ Safe State.reset

/-- R126, which the spec marks as derived: the first TICK after reset emits nothing and only advances the row, and an EDGE before it is credited to
row `RESET_ROW`. -/
def Obligations.FirstOperationsAfterReset : Prop :=
  ∀ (c : Config), meetsR12 c = true →
    (∀ cols, exec (.tick cols) (State.resetWith c) =
      .next { State.resetWith c with rowOut := rowPattern (Fin.ofNat 4 (c.resetRow.val + 1)) })
    ∧ ∀ mask, ∃ t, exec (.edge mask) (State.resetWith c) = .next t
        ∧ ∀ k, t.count k = if k.row = c.resetRow ∧ mask[k.col] = true then 1 else 0

/-! ## NOP and RESET -/

/-- R106: NOP is the word `0x00` and changes nothing, in any state. -/
def Obligations.NopChangesNothing : Prop := encode .nop = 0x00#8 ∧ ∀ s : State, exec .nop s = .next s

/-- R105: RESET is the word `0xC0`, and any other word with `op = 11` is illegal. It clears every counter, sets `ROW_OUT` to the pattern of `RESET_ROW`, emits nothing, and leaves the
events already emitted. The configuration and the input still to come stay too. -/
def Obligations.ResetClearsTheBlock : Prop :=
  encode .reset = 0xC0#8
    ∧ (∀ w : StimulusWord, w.extractLsb' 6 2 = 0b11#2 → (∃ i, decode w = .op i) → w = 0xC0#8)
    ∧ ∀ s : State, ∃ t, exec .reset s = .next t ∧ (∀ k, t.count k = 0) ∧ t.rowOut = ~~~(1#4 <<< s.cfg.resetRow.val)
    ∧ t.events = s.events ∧ t.cfg = s.cfg ∧ t.stimulus = s.stimulus

/-- R105: RESET in the reset state changes nothing. -/
def Obligations.ResetInTheResetStateChangesNothing : Prop :=
  ∀ s : State, (∀ k, s.count k = 0) → s.rowOut = rowPattern s.cfg.resetRow → exec .reset s = .next s

/-! ## TICK and the strobe sequencer -/

/-- R24, which the spec marks as derived, and R32: the states with exactly one row line low are the four patterns `0b1110, 0b1101, 0b1011, 0b0111`, and in
them `row_active` holds of the current row alone. -/
def Obligations.CurrentRowIsTheLowLine : Prop :=
  (∀ s : State, OneRowLow s ↔
      (s.rowOut = 0b1110#4 ∨ s.rowOut = 0b1101#4 ∨ s.rowOut = 0b1011#4 ∨ s.rowOut = 0b0111#4))
    ∧ ∀ (s : State) (r : Row),
        curRow s = some r ↔ (s.rowOut[r] = false ∧ ∀ j : Row, j ≠ r → s.rowOut[j] = true)

/-- R66, R68: each TICK moves the low line one place on, by the table of R66, whatever the column sample, the
counters and the reports are. -/
def Obligations.TickAdvancesTheRow : Prop :=
  ∀ (s : State) (cols : ColBits), OneRowLow s →
    ∃ t, exec (.tick cols) s = .next t ∧ OneRowLow t
      ∧ (s.rowOut = 0b1110#4 → t.rowOut = 0b1101#4) ∧ (s.rowOut = 0b1101#4 → t.rowOut = 0b1011#4)
      ∧ (s.rowOut = 0b1011#4 → t.rowOut = 0b0111#4) ∧ (s.rowOut = 0b0111#4 → t.rowOut = 0b1110#4)

/-- R67: after operations with `n` TICKs and no RESET among them, the current row is `(cur_row_0 + n) mod 4`, whatever
EDGEs and NOPs stand between. -/
def Obligations.TicksGoRoundTheRows : Prop :=
  ∀ (ops : List Instr) (s : State) (r : Row) (rest : List StimulusWord),
    configLegal s.cfg = true → s.rowOut = rowPattern r → Instr.reset ∉ ops → s.stimulus = ops.map encode ++ rest →
    ∃ t, runSteps ops.length s = .next t ∧ t.stimulus = rest
      ∧ curRow t = some (Fin.ofNat 4 (r.val + (tickStream ops).length))

/-- R87, R88, R92 (with R89, R90, R91 for the short cases), through a TICK that releases exactly the key `(r, c)`: idle, short chord with the first matching
partner in scan order, single short, and the silent clear of a count at or above `SHORT_CLICK_THRESHOLD`. -/
def Obligations.TickOfOneReleasedKey : Prop :=
  ∀ (s : State) (r : Row) (c : Col) (cols : ColBits), s.rowOut = rowPattern r →
    (∀ j : Col, cols[j] = decide (j ≠ c)) →
    let k : Key := ⟨r, c⟩
    let short (j : Key) : Prop := 0 < s.count j ∧ s.count j < s.cfg.shortClickThreshold
    ∃ t, exec (.tick cols) s = .next t
      ∧ t.rowOut = rowPattern (Fin.ofNat 4 (r.val + 1)) ∧ t.cfg = s.cfg ∧ t.stimulus = s.stimulus
      ∧ (s.count k = 0 → t.events = s.events ∧ ∀ j, t.count j = s.count j)
      ∧ (∀ p, short k → p ≠ k → short p → (∀ q, keyIndex q < keyIndex p → q ≠ k → ¬ short q) →
          t.events = s.events ++ [.chordShort k p] ∧ ∀ j, t.count j = if j = k ∨ j = p then 0 else s.count j)
      ∧ (short k → (∀ q, q ≠ k → ¬ short q) →
          t.events = s.events ++ [.singleShort k] ∧ ∀ j, t.count j = if j = k then 0 else s.count j)
      ∧ (0 < s.count k → s.cfg.shortClickThreshold ≤ s.count k →
          t.events = s.events ∧ ∀ j, t.count j = if j = k then 0 else s.count j)

/-- R86: the release phase takes the three columns one after another in ascending order, each seeing the clears made
before it. Said through TICKs that each release at most one column, from the same row. -/
def Obligations.TickChecksColumnsInAscendingOrder : Prop :=
  ∀ (s : State) (cols : ColBits), OneRowLow s →
    ∃ t0 t1 t2, exec (.tick (cols ||| 0b110#3)) s = .next t0
      ∧ exec (.tick (cols ||| 0b101#3)) { t0 with rowOut := s.rowOut } = .next t1
      ∧ exec (.tick (cols ||| 0b011#3)) { t1 with rowOut := s.rowOut } = .next t2
      ∧ exec (.tick cols) s = .next t2

/-- R21, R86, R93, R94: what a TICK does to each counter, and its frame. A key of the current row whose column is not
asserting ends at 0, and so does every key named as a partner. Every other counter is unchanged. -/
def Obligations.TickCounterEffectAndFrame : Prop :=
  ∀ (s : State) (r : Row) (cols : ColBits), s.rowOut = rowPattern r →
    ∃ t, exec (.tick cols) s = .next t ∧ t.cfg = s.cfg ∧ t.stimulus = s.stimulus ∧ s.events <+: t.events
      ∧ (∀ k : Key, k.row = r → cols[k.col] = false → t.count k = 0)
      ∧ (∀ k k1 : Key, Event.chordShort k1 k ∈ newEvents s t → t.count k = 0)
      ∧ ∀ k : Key, ¬ (k.row = r ∧ cols[k.col] = false) → (∀ k1, Event.chordShort k1 k ∉ newEvents s t) →
          t.count k = s.count k

/-- R95, R86: a TICK emits at most three reports, all short, each for a released key of the row being left, in
ascending column order (the spec marks R95 as derived). -/
def Obligations.TickReports : Prop :=
  ∀ (s t : State) (r : Row) (cols : ColBits), s.rowOut = rowPattern r → exec (.tick cols) s = .next t →
    (newEvents s t).length ≤ 3
      ∧ (∀ e ∈ newEvents s t, isShortEvent e = true ∧ (firstKey e).row = r ∧ cols[(firstKey e).col] = false)
      ∧ (newEvents s t).Pairwise fun e f => (firstKey e).col < (firstKey f).col

/-- The model's own stop (log entry 5): a TICK is refused exactly where `ROW_OUT` does not have exactly one low bit,
which R24 says no operation reaches. -/
def Obligations.TickIsRefusedOnlyWithoutACurrentRow : Prop :=
  ∀ (s : State) (cols : ColBits), exec (.tick cols) s = .refused .noCurrentRow ↔ ¬ OneRowLow s

/-! ## EDGE and the long-press detector -/

/-- R73, R76, R78: each set column credits every active row, and no other counter changes. The increment saturates at
`2^W − 1`. No hypothesis: with no row active nothing is credited, with several each is. -/
def Obligations.EdgeIncrementsActiveKeys : Prop :=
  ∀ (s : State) (mask : ColBits), ∃ t, exec (.edge mask) s = .next t
    ∧ t.rowOut = s.rowOut ∧ t.cfg = s.cfg ∧ t.stimulus = s.stimulus ∧ s.events <+: t.events
    ∧ ∀ k : Key, t.count k =
        if s.rowOut[k.row] = false ∧ mask[k.col] = true then
          (if s.count k = 2 ^ s.cfg.counterWidth - 1 then 2 ^ s.cfg.counterWidth - 1 else s.count k + 1)
        else s.count k

/-- R72: the columns of an EDGE are processed in ascending order, each finished before the next: the EDGE is the
EDGEs of its single columns one after another. -/
def Obligations.EdgeColumnsInAscendingOrder : Prop :=
  ∀ (s : State) (mask : ColBits), ∃ t0 t1 t2, exec (.edge (mask &&& 0b001#3)) s = .next t0
    ∧ exec (.edge (mask &&& 0b010#3)) t0 = .next t1 ∧ exec (.edge (mask &&& 0b100#3)) t1 = .next t2
    ∧ exec (.edge mask) s = .next t2

/-- R74: an EDGE with an empty mask changes nothing. -/
def Obligations.EmptyEdgeChangesNothing : Prop := ∀ s : State, exec (.edge 0b000#3) s = .next s

/-- R79, R85: an EDGE emits exactly one report for each key it takes from `LONG_CLICK_THRESHOLD - 1` to the
threshold, in ascending column order, naming it first, and every report is long. -/
def Obligations.EdgeReportsExactlyTheThresholdCrossings : Prop :=
  ∀ (s : State) (r : Row) (mask : ColBits), meetsR12 s.cfg = true → s.rowOut = rowPattern r →
    ∃ t, exec (.edge mask) s = .next t
      ∧ (newEvents s t).map firstKey =
          (([0, 1, 2] : List Col).filter
            (fun c => mask[c] && decide (s.count ⟨r, c⟩ + 1 = s.cfg.longClickThreshold))).map (fun c => ⟨r, c⟩)
      ∧ (∀ e ∈ newEvents s t, isLongEvent e = true) ∧ (newEvents s t).length ≤ 3

/-- R80, R81, R82: the report of one key that reaches the threshold, and what else changes: only its counter. -/
def Obligations.EdgeOfOneKeyAtTheThreshold : Prop :=
  ∀ (s : State) (r : Row) (c : Col) (mask : ColBits), meetsR12 s.cfg = true → s.rowOut = rowPattern r →
    (∀ j : Col, mask[j] = decide (j = c)) → s.count ⟨r, c⟩ + 1 = s.cfg.longClickThreshold →
    let k : Key := ⟨r, c⟩
    let near (j : Key) : Prop := s.cfg.longClickThreshold - s.cfg.maxDeviation ≤ s.count j
    ∃ t, exec (.edge mask) s = .next t
      ∧ t.rowOut = s.rowOut ∧ t.cfg = s.cfg ∧ t.stimulus = s.stimulus
      ∧ (∀ j, t.count j = if j = k then s.cfg.longClickThreshold else s.count j)
      ∧ (∀ p, p ≠ k → near p → (∀ q, keyIndex q < keyIndex p → q ≠ k → ¬ near q) →
          t.events = s.events ++ [.chordLong k p])
      ∧ ((∀ q, q ≠ k → ¬ near q) → t.events = s.events ++ [.singleLong k])

/-- R84, which the spec marks as derived: two keys of the current row that reach the threshold in one EDGE give two chords, each naming the other,
where no third key is near the threshold and the deviation allows at least one. -/
def Obligations.TwoKeysCrossingTogetherGiveTwoChords : Prop :=
  ∀ (s : State) (r : Row) (a b : Col) (mask : ColBits), meetsR12 s.cfg = true → 1 ≤ s.cfg.maxDeviation →
    s.rowOut = rowPattern r → a < b → (∀ j : Col, mask[j] = decide (j = a ∨ j = b)) →
    s.count ⟨r, a⟩ + 1 = s.cfg.longClickThreshold → s.count ⟨r, b⟩ + 1 = s.cfg.longClickThreshold →
    (∀ q : Key, q ≠ ⟨r, a⟩ → q ≠ ⟨r, b⟩ → s.count q + s.cfg.maxDeviation < s.cfg.longClickThreshold) →
    ∃ t, exec (.edge mask) s = .next t
      ∧ t.events = s.events ++ [.chordLong ⟨r, a⟩ ⟨r, b⟩, .chordLong ⟨r, b⟩ ⟨r, a⟩]

/-- R70, R133: an EDGE after a TICK is credited to the row that is low after the TICK, the one after the row that
ended. -/
def Obligations.EdgeAfterTickCreditsTheNextRow : Prop :=
  ∀ (s : State) (r : Row) (cols mask : ColBits), s.rowOut = rowPattern r →
    ∃ t u, exec (.tick cols) s = .next t ∧ exec (.edge mask) t = .next u
      ∧ ∀ k : Key, (k.row ≠ Fin.ofNat 4 (r.val + 1) ∨ mask[k.col] = false → u.count k = t.count k)
          ∧ (k.row = Fin.ofNat 4 (r.val + 1) → mask[k.col] = true →
              u.count k = satInc s.cfg (t.count k))

/-! ## One step -/

/-- When the next stimulus word decodes to an operation, a step is that operation, in the state in which exactly that
word has been taken from the input (R100, R103; the input list is log entry 2). -/
def Obligations.StepRunsTheDecodedOperation : Prop :=
  ∀ (s : State) (w : StimulusWord) (rest : List StimulusWord) (i : Instr), configLegal s.cfg = true →
    s.stimulus = w :: rest → decode w = .op i → step s = exec i { s with stimulus := rest }

/-- A word put at the front of the input is the one the next step runs, from the state without it (log entry 2). -/
def Obligations.StepRunsThePlacedWord : Prop :=
  ∀ (s : State) (w : Nat) (i : Instr), configLegal s.cfg = true → decodeTableWord 8 w = some i →
    step (s.withFetchWord 8 w) = exec i s

/-- With no operation arrived the block waits and nothing changes (the model's reading of R45, log entry 2). -/
def Obligations.StepWaitsForInput : Prop :=
  ∀ s : State, configLegal s.cfg = true → s.stimulus = [] → step s = .next s

/-- The constraints of R12, with the model's reading of how a model refuses (DEDUCED, log entry 6): every step of a
block whose configuration breaks one of the four is refused, before any word is looked at and with an empty input too,
and no other configuration is refused under this name (`ShortThresholdAboveCounterRangeIsRefused` has another). -/
def Obligations.IllegalConfigurationIsRefused : Prop :=
  ∀ s : State, step s = .refused .illegalConfiguration ↔
    ¬ (2 ^ s.cfg.counterWidth - 1 > s.cfg.longClickThreshold ∧ 1 ≤ s.cfg.shortClickThreshold
        ∧ s.cfg.maxDeviation ≤ s.cfg.longClickThreshold ∧ s.cfg.longClickThreshold ≥ 1)

/-- R13, in the model's reading (DEDUCED, log entry 10): every step of a block whose configuration meets R12 and whose
`SHORT_CLICK_THRESHOLD` lies above `CNT_MAX` is refused under a name of its own, and no other configuration is. -/
def Obligations.ShortThresholdAboveCounterRangeIsRefused : Prop :=
  ∀ s : State, step s = .refused .shortThresholdAboveCounterRange ↔
    (2 ^ s.cfg.counterWidth - 1 > s.cfg.longClickThreshold ∧ 1 ≤ s.cfg.shortClickThreshold
        ∧ s.cfg.maxDeviation ≤ s.cfg.longClickThreshold ∧ s.cfg.longClickThreshold ≥ 1)
      ∧ s.cfg.shortClickThreshold > 2 ^ s.cfg.counterWidth - 1

/-- R113, in the model's reading (DEDUCED, log entry 7): an illegal stimulus word is refused by name, the unchanged
state is that there is no next state, and the refusal mark is that every longer run has that outcome. -/
def Obligations.IllegalWordIsRefusedForTheRestOfTheRun : Prop :=
  ∀ (s : State) (w : StimulusWord) (rest : List StimulusWord), configLegal s.cfg = true →
    s.stimulus = w :: rest → StimulusWord.legal w = false →
    ∃ why, decode w = .illegal why ∧ ∀ n, runSteps (n + 1) s = .refused (.illegalStimulus w why)

/-- R18, R28: no step changes the configuration, and a step takes one word from the input (R103). -/
def Obligations.StepKeepsConfigurationAndTakesOneWord : Prop :=
  ∀ s t : State, step s = .next t → t.cfg = s.cfg ∧ t.stimulus = s.stimulus.tail

/-- R21: EDGE adds one to a counter or leaves it (at `CNT_MAX` too), TICK clears it or leaves it, RESET clears it, NOP
leaves it. There is no other write. -/
def Obligations.CounterWriters : Prop :=
  ∀ (s t : State) (k : Key),
    (∀ mask, exec (.edge mask) s = .next t → t.count k = s.count k ∨ t.count k = s.count k + 1)
      ∧ (∀ cols, exec (.tick cols) s = .next t → t.count k = s.count k ∨ t.count k = 0)
      ∧ (exec .reset s = .next t → t.count k = 0) ∧ (exec .nop s = .next t → t.count k = s.count k)

/-- R96: a step only appends to the output event sequence. -/
def Obligations.ReportsAreOnlyAppended : Prop :=
  ∀ s t : State, step s = .next t → s.events <+: t.events

/-- R18, R96: no operation reads the output event sequence: with other events emitted before, a step does the same,
and its reports follow those. -/
def Obligations.ReportsAreNeverRead : Prop :=
  ∀ (s : State) (before : List Event),
    (∀ t, step { s with events := [] } = .next t →
      step { s with events := before } = .next { t with events := before ++ t.events })
    ∧ ∀ f, step { s with events := [] } = .refused f → step { s with events := before } = .refused f

/-- R104: an operation emits at most three reports where exactly one row is low, and RESET and NOP emit none. -/
def Obligations.AtMostThreeReportsAnOperation : Prop :=
  ∀ (i : Instr) (s t : State), OneRowLow s → exec i s = .next t →
    (newEvents s t).length ≤ 3 ∧ (i = .nop ∨ i = .reset → newEvents s t = [])

/-- R27, which the spec marks as derived: an operation takes a key into LongFired exactly when it emits the long-press event that names the key first. -/
def Obligations.LongFiredIsEnteredExactlyWithItsReport : Prop :=
  ∀ (i : Instr) (s t : State) (k : Key), meetsR12 s.cfg = true → OneRowLow s → exec i s = .next t →
    ((phase s k ≠ .longFired ∧ phase t k = .longFired) ↔ ∃ e ∈ newEvents s t, isLongEventOf k e = true)

/-! ## Runs -/

/-- Every step keeps the invariant: a legal configuration (R12; R13, log entry 10), exactly one row low (R24, R68), every counter in
`0..CNT_MAX` (R19), and every report as R60 allows. -/
def Obligations.StepKeepsSafe : Prop :=
  ∀ s t : State, Safe s → step s = .next t → Safe t

/-- R111, over runs: from every safe state, a run on legal words never stops: it answers a next state after every
number of steps, and that state is safe (R19; R24 and R60, which the spec marks as derived). That the run goes on by
waiting once the input is spent is the model's reading (DEDUCED, log entry 2). -/
def Obligations.RunsOnLegalWordsNeverStop : Prop :=
  ∀ (n : Nat) (s : State), Safe s → (∀ w ∈ s.stimulus, StimulusWord.legal w = true) →
    ∃ t, runSteps n s = .next t ∧ Safe t

/-- R83, which the spec marks as derived: in a run in which the counter of a key is not cleared, at most one long-press event names the key first. -/
def Obligations.AtMostOneLongPressBetweenClears : Prop :=
  ∀ (n : Nat) (s t : State) (k : Key), Safe s → NoClear k n s → runSteps n s = .next t →
    ((newEvents s t).filter (isLongEventOf k)).length ≤ 1

/-- R13, which the spec marks as derived: two blocks that differ in the counter width alone show the same row lines and
the same reports after every number of steps, and stop alike. That the configurations R13 speaks of are those with
`SHORT_CLICK_THRESHOLD` not above `CNT_MAX` (part of `Safe`) is log entry 10. -/
def Obligations.CounterWidthIsNotObservable : Prop :=
  ∀ (n : Nat) (s t : State), Safe s → Safe t → SameUpToWidth s t →
    (∃ s' t', runSteps n s = .next s' ∧ runSteps n t = .next t' ∧ observe s' = observe t' ∧ SameUpToWidth s' t')
      ∨ ∃ f, runSteps n s = .refused f ∧ runSteps n t = .refused f

/-- R13, which the spec marks as derived, at the short and long thresholds that R7 makes normative: R12 alone is the
premise. Whatever the two widths, `MAX_DEVIATION`, `RESET_ROW` and the input are, the runs from reset look alike. -/
def Obligations.WidthIsNotObservableAtTheNormativeThresholds : Prop :=
  ∀ (c : Config) (w n : Nat) (words : List StimulusWord),
    c.longClickThreshold = 25 → c.shortClickThreshold = 10 →
    meetsR12 c = true → meetsR12 { c with counterWidth := w } = true →
    SameOutcome (runSteps n { State.resetWith c with stimulus := words })
      (runSteps n { State.resetWith { c with counterWidth := w } with stimulus := words })

/-- R13's sentence on saturated counters, which the spec marks as derived: a configuration that meets R12 is legal
exactly if a counter that has reached `CNT_MAX` gives the same answer to each of the four tests (0, below
`SHORT_CLICK_THRESHOLD`, at least `LONG_NEAR`, equal to `LONG_CLICK_THRESHOLD`) as every larger value (log entry 10). -/
def Obligations.LegalConfigurationsAnswerAlikePastSaturation : Prop :=
  ∀ c : Config, meetsR12 c = true →
    (configLegal c = true ↔ ∀ v, cntMax c ≤ v →
      (v = 0 ↔ cntMax c = 0) ∧ (v < c.shortClickThreshold ↔ cntMax c < c.shortClickThreshold)
        ∧ (longNear c ≤ v ↔ longNear c ≤ cntMax c) ∧ (v = c.longClickThreshold ↔ cntMax c = c.longClickThreshold))

/-- Why R13 needs that bound (log entry 10): for every two configurations that meet R12, differ in the width alone and
have their `CNT_MAX` on the two sides of `SHORT_CLICK_THRESHOLD`, some operations give different reports from reset,
by R78 and R87. -/
def Obligations.WidthIsObservableAcrossTheShortThreshold : Prop :=
  ∀ (c : Config) (w : Nat), meetsR12 c = true → meetsR12 { c with counterWidth := w } = true →
    cntMax c < c.shortClickThreshold → c.shortClickThreshold ≤ cntMax { c with counterWidth := w } →
    ∃ (ops : List Instr) (t u : State),
      runOps ops (State.resetWith c) = .next t
        ∧ runOps ops (State.resetWith { c with counterWidth := w }) = .next u
        ∧ t.events ≠ u.events

/-! ## Arrival order and the reference environment -/

/-- R101, R103: the admissible inputs for a stream of ticks and a stream of edge events are exactly the sequences that
interleave them (`Interleaves`), and a sequence is admissible for no two pairs of streams. -/
def Obligations.AdmissibleInputsAreTheInterleavings : Prop :=
  (∀ (ticks edges : List ColBits) (ops : List Instr), admissible ticks edges ops = true ↔ Interleaves ticks edges ops)
    ∧ ∀ (ticks edges ticks' edges' : List ColBits) (ops : List Instr),
        admissible ticks edges ops = true → admissible ticks' edges' ops = true → ticks = ticks' ∧ edges = edges'

/-- R101, R103, D13: a tick and an edge event that wait together may be admitted in either order, each named priority
being one of them; an input that loses, doubles or merges an edge event, loses a tick, or takes two ticks in the other
order is not admissible; and the two orders can end in different reports (vectors O1 and O2). -/
def Obligations.ArrivalOrderIsOpenAndObservable : Prop :=
  (∀ (cols mask : ColBits), admissible [cols] [mask] [.tick cols, .edge mask] = true
      ∧ admissible [cols] [mask] [.edge mask, .tick cols] = true)
    ∧ (∀ (p : ArrivalPriority) (cols mask : ColBits), admissible [cols] [mask] (admitBoth p cols mask) = true)
    ∧ (∀ (cols mask mask' : ColBits),
        admissible [cols] [mask] [.tick cols] = false ∧ admissible [cols] [mask] [.edge mask] = false
          ∧ admissible [cols] [mask] [.tick cols, .edge mask, .edge mask] = false
          ∧ admissible [] [mask, mask'] [.edge (mask ||| mask')] = false)
    ∧ (∀ (cols cols' : ColBits), cols ≠ cols' → admissible [cols, cols'] [] [.tick cols', .tick cols] = false)
    ∧ ∃ (cols mask : ColBits) (t u : State),
        runSteps 2 { State.reset with stimulus := (admitBoth .edgeFirst cols mask).map encode } = .next t
        ∧ runSteps 2 { State.reset with stimulus := (admitBoth .tickFirst cols mask).map encode } = .next u
        ∧ t.events = [.singleShort ⟨0, 0⟩] ∧ u.events = [] ∧ u.count ⟨1, 0⟩ = 1

/-- R130, R131 (the non-normative reference environment): the move to the next row gives column `c` a falling edge
exactly when the next row's key is closed and this row's key is open, so a held key below a held key of the same
column gets none. -/
def Obligations.StrobeEdgesAreMaskedByTheRowBefore : Prop :=
  ∀ (m : KeyMatrix) (r : Row) (c : Col),
    (strobeEdges m r)[c] = (pressed m ⟨Fin.ofNat 4 (r.val + 1), c⟩ && !pressed m ⟨r, c⟩)

/-- R130, R134 (the non-normative reference environment): a key held alone gets exactly one qualifying edge in one
full strobe cycle, whatever row the cycle begins on. -/
def Obligations.OneEdgeACycleForAKeyHeldAlone : Prop :=
  ∀ (m : KeyMatrix) (k : Key) (r : Row), (∀ j, pressed m j = decide (j = k)) →
    edgeStream (restOps m 4 r) = [(1#3 <<< k.col.val)]
end

