-- ==== Sys2Proof/Laws/State.lean ====
section
/-! SUPPORT. One lemma per field per update of the state, so that no proof unfolds a record update, and reading a
counter after writing one. -/

namespace Sys2Proof.Machine

variable (s : State) (k : Key) (v n w : Nat) (b : RowBits) (e : Event) (c : Config)

@[simp] theorem State.setCount_cfg : (s.setCount k v).cfg = s.cfg := rfl
@[simp] theorem State.setCount_rowOut : (s.setCount k v).rowOut = s.rowOut := rfl
@[simp] theorem State.setCount_stimulus : (s.setCount k v).stimulus = s.stimulus := rfl
@[simp] theorem State.setCount_events : (s.setCount k v).events = s.events := rfl

@[simp] theorem State.setRowOut_cfg : (s.setRowOut b).cfg = s.cfg := rfl
@[simp] theorem State.setRowOut_cnt : (s.setRowOut b).cnt = s.cnt := rfl
@[simp] theorem State.setRowOut_rowOut : (s.setRowOut b).rowOut = b := rfl
@[simp] theorem State.setRowOut_stimulus : (s.setRowOut b).stimulus = s.stimulus := rfl
@[simp] theorem State.setRowOut_events : (s.setRowOut b).events = s.events := rfl
@[simp] theorem State.setRowOut_count : (s.setRowOut b).count k = s.count k := rfl

@[simp] theorem State.emit_cfg : (s.emit e).cfg = s.cfg := rfl
@[simp] theorem State.emit_cnt : (s.emit e).cnt = s.cnt := rfl
@[simp] theorem State.emit_rowOut : (s.emit e).rowOut = s.rowOut := rfl
@[simp] theorem State.emit_stimulus : (s.emit e).stimulus = s.stimulus := rfl
@[simp] theorem State.emit_events : (s.emit e).events = s.events ++ [e] := rfl
@[simp] theorem State.emit_count : (s.emit e).count k = s.count k := rfl

@[simp] theorem State.afterWord_cfg : s.afterWord.cfg = s.cfg := rfl
@[simp] theorem State.afterWord_cnt : s.afterWord.cnt = s.cnt := rfl
@[simp] theorem State.afterWord_rowOut : s.afterWord.rowOut = s.rowOut := rfl
@[simp] theorem State.afterWord_stimulus : s.afterWord.stimulus = s.stimulus.tail := rfl
@[simp] theorem State.afterWord_events : s.afterWord.events = s.events := rfl
@[simp] theorem State.afterWord_count : s.afterWord.count k = s.count k := rfl

@[simp] theorem State.withFetchWord_cfg : (s.withFetchWord n w).cfg = s.cfg := rfl
@[simp] theorem State.withFetchWord_cnt : (s.withFetchWord n w).cnt = s.cnt := rfl
@[simp] theorem State.withFetchWord_rowOut : (s.withFetchWord n w).rowOut = s.rowOut := rfl
@[simp] theorem State.withFetchWord_events : (s.withFetchWord n w).events = s.events := rfl
@[simp] theorem State.withFetchWord_stimulus :
    (s.withFetchWord n w).stimulus = BitVec.ofNat 8 (w % 2 ^ n) :: s.stimulus := rfl

@[simp] theorem resetBlock_cfg : (resetBlock s).cfg = s.cfg := rfl
@[simp] theorem resetBlock_cnt : (resetBlock s).cnt = zeroTable := rfl
@[simp] theorem resetBlock_rowOut : (resetBlock s).rowOut = rowPattern s.cfg.resetRow := rfl
@[simp] theorem resetBlock_stimulus : (resetBlock s).stimulus = s.stimulus := rfl
@[simp] theorem resetBlock_events : (resetBlock s).events = s.events := rfl

@[simp] theorem State.resetWith_cfg : (State.resetWith c).cfg = c := rfl
@[simp] theorem State.resetWith_cnt : (State.resetWith c).cnt = zeroTable := rfl
@[simp] theorem State.resetWith_rowOut : (State.resetWith c).rowOut = rowPattern c.resetRow := rfl
@[simp] theorem State.resetWith_stimulus : (State.resetWith c).stimulus = [] := rfl
@[simp] theorem State.resetWith_events : (State.resetWith c).events = [] := rfl

/-- A counter read after a write: the value written at that key, the old value at every other (R39). -/
@[simp] theorem State.setCount_count (j : Key) :
    (s.setCount k v).count j = if j = k then v else s.count j := by
  obtain ⟨kr, kc⟩ := k
  obtain ⟨jr, jc⟩ := j
  by_cases hr : jr = kr
  · subst hr
    by_cases hc : jc = kc
    · subst hc; simp [State.setCount, State.count]
    · have : ¬ kc.val = jc.val := fun h => hc (Fin.ext h.symm)
      simp [State.setCount, State.count, hc, this]
  · have : ¬ kr.val = jr.val := fun h => hr (Fin.ext h.symm)
    simp [State.setCount, State.count, hr, this]

/-- Every counter of the reset table is 0 (R20). -/
theorem count_of_zeroTable (s : State) (h : s.cnt = zeroTable) (k : Key) : s.count k = 0 := by
  simp [State.count, h, zeroTable]

@[simp] theorem resetBlock_count : (resetBlock s).count k = 0 := count_of_zeroTable _ rfl k
@[simp] theorem State.resetWith_count : (State.resetWith c).count k = 0 := count_of_zeroTable _ rfl k

/-- Two states with the same counters have the same counter table. -/
theorem cnt_ext {s t : State} (h : ∀ k, s.count k = t.count k) : s.cnt = t.cnt := by
  ext r hr c hc
  exact h ⟨⟨r, hr⟩, ⟨c, hc⟩⟩

/-- Two states are equal when every field and every counter is. -/
theorem state_ext {s t : State} (hcfg : s.cfg = t.cfg) (hcnt : ∀ k, s.count k = t.count k)
    (hrow : s.rowOut = t.rowOut) (hstim : s.stimulus = t.stimulus) (hev : s.events = t.events) : s = t := by
  have := cnt_ext hcnt
  cases s; cases t; simp_all

end Sys2Proof.Machine
end

