-- ==== Sys2Proof/Laws/Ops.lean ====
section
/-! SUPPORT. The scan, the row lines, and what each shared operation can do, said once each. -/

namespace Sys2Proof.Machine

/-- Every key is visited by a scan (R16). -/
theorem mem_scanOrder (k : Key) : k ∈ scanOrder := by
  obtain ⟨r, c⟩ := k
  revert r c
  decide

/-- A scan visits the keys with their indices strictly rising (R16, R38). -/
theorem scanOrder_sorted : scanOrder.Pairwise fun a b => keyIndex a < keyIndex b := by decide

/-- The key index names the key (R38). -/
theorem keyIndex_injective {a b : Key} (h : keyIndex a = keyIndex b) : a = b := by
  obtain ⟨⟨ar, _⟩, ⟨ac, _⟩⟩ := a
  obtain ⟨⟨br, _⟩, ⟨bc, _⟩⟩ := b
  simp only [keyIndex] at h
  have h1 : ar = br := by omega
  have h2 : ac = bc := by omega
  simp [h1, h2]

/-- A search that finds a key found one that matches, and none of a smaller index does (R16). -/
theorem firstInScan_some {p : Key → Bool} {k : Key} (h : firstInScan p = some k) :
    p k = true ∧ ∀ j, keyIndex j < keyIndex k → p j = false := by
  obtain ⟨hk, front, back, hl, hfront⟩ := List.find?_eq_some_iff_append.mp h
  refine ⟨hk, fun j hj => ?_⟩
  have hmem := mem_scanOrder j
  have hs := scanOrder_sorted
  rw [hl] at hmem hs
  rcases List.mem_append.mp hmem with hm | hm
  · simpa using hfront j hm
  · rcases List.mem_cons.mp hm with rfl | hb
    · omega
    · have := (List.pairwise_cons.mp (List.pairwise_append.mp hs).2.1).1 j hb
      omega

/-- A search that finds none: no key matches. -/
theorem firstInScan_none {p : Key → Bool} (h : firstInScan p = none) (k : Key) : p k = false := by
  have := List.find?_eq_none.mp h k (mem_scanOrder k)
  simpa using this

/-- Two tests that agree on every key find the same key. -/
theorem firstInScan_congr {p q : Key → Bool} (h : ∀ k, p k = q k) : firstInScan p = firstInScan q := by
  rw [funext h]

/-- On the pattern of row `r`, exactly row `r` is active (R22, R32). -/
theorem rowActive_of_pattern {s : State} {r : Row} (h : s.rowOut = rowPattern r) (j : Row) :
    rowActive s j = decide (j = r) := by
  have key : ∀ r j : Row, (!(rowPattern r)[j]) = decide (j = r) := by decide
  simp only [rowActive, h]
  exact key r j

/-- `cur_row` is the row whose pattern the register holds (R24). -/
theorem curRow_of_pattern {s : State} {r : Row} (h : s.rowOut = rowPattern r) : curRow s = some r := by
  have hf : rowActive s = fun j => decide (j = r) := funext (rowActive_of_pattern h)
  simp only [curRow, hf]
  clear hf h
  revert r
  decide

/-- Where `cur_row` exists, the register holds its pattern (R24). -/
theorem pattern_of_curRow {s : State} {r : Row} (h : curRow s = some r) : s.rowOut = rowPattern r := by
  have key : ∀ (b : RowBits) (r : Row),
      (match allRows.filter fun j => !b[j] with | [r] => some r | _ => none) = some r → b = rowPattern r := by
    decide
  exact key s.rowOut r h

/-- What the long-press detector does (R80, R81): one event, which names `k` first. -/
theorem longPress_cases (k : Key) (s : State) :
    (∃ p, longPartner k s = some p ∧ longPress k s = s.emit (.chordLong k p))
      ∨ (longPartner k s = none ∧ longPress k s = s.emit (.singleLong k)) := by
  unfold longPress
  cases longPartner k s <;> simp

/-- What a qualifying edge does (R76 to R81): the increment, and one long-press event exactly at the threshold. -/
theorem creditKey_cases (k : Key) (s : State) :
    (satInc s.cfg (s.count k) = s.cfg.longClickThreshold
        ∧ creditKey k s = longPress k (s.setCount k (satInc s.cfg (s.count k))))
      ∨ (satInc s.cfg (s.count k) ≠ s.cfg.longClickThreshold
        ∧ creditKey k s = s.setCount k (satInc s.cfg (s.count k))) := by
  by_cases h : satInc s.cfg (s.count k) = s.cfg.longClickThreshold
  · left; simp [creditKey, isLongTrigger, h]
  · right; simp [creditKey, isLongTrigger, h]

/-- What a release-check does (R87 to R92). -/
theorem releaseCheck_cases (k : Key) (s : State) :
    (s.count k = 0 ∧ releaseCheck k s = s)
      ∨ (isShortCount s.cfg (s.count k) = true ∧ ∃ p, shortPartner k s = some p
          ∧ releaseCheck k s = ((s.emit (.chordShort k p)).setCount k 0).setCount p 0)
      ∨ (isShortCount s.cfg (s.count k) = true ∧ shortPartner k s = none
          ∧ releaseCheck k s = (s.emit (.singleShort k)).setCount k 0)
      ∨ (s.count k ≠ 0 ∧ isShortCount s.cfg (s.count k) = false ∧ releaseCheck k s = s.setCount k 0) := by
  unfold releaseCheck
  split
  · left; exact ⟨‹_›, rfl⟩
  · right
    split
    · cases hp : shortPartner k s with
      | some p => left; exact ⟨‹_›, p, rfl, rfl⟩
      | none => right; left; exact ⟨‹_›, rfl, rfl⟩
    · right; right; exact ⟨‹_›, Bool.eq_false_iff.mpr ‹_›, rfl⟩

/-- The scan of `longPartner` reads the counters and the configuration only (R80). -/
theorem longPartner_congr {k : Key} {s t : State} (hc : s.cfg = t.cfg) (h : ∀ j, s.count j = t.count j) :
    longPartner k s = longPartner k t :=
  firstInScan_congr fun j => by rw [hc, h j]

/-- The scan of `shortPartner` reads the counters and the configuration only (R89). -/
theorem shortPartner_congr {k : Key} {s t : State} (hc : s.cfg = t.cfg) (h : ∀ j, s.count j = t.count j) :
    shortPartner k s = shortPartner k t :=
  firstInScan_congr fun j => by rw [hc, h j]

/-- An edge event column by column (R72). -/
theorem sampleEdges_eq (mask : ColBits) (s : State) :
    sampleEdges mask s =
      [(0 : Col), 1, 2].foldl (fun s c => if colBit mask c then creditColumn s c else s) s := rfl

/-- A release phase column by column (R86). -/
theorem releasePhase_eq (r : Row) (cols : ColBits) (s : State) :
    releasePhase r cols s =
      [(0 : Col), 1, 2].foldl (fun s c => if colBit cols c then s else releaseCheck ⟨r, c⟩ s) s := rfl

/-- A property that every release-check keeps is kept by the release phase. -/
theorem releasePhase_induction {P : State → Prop} (r : Row) (cols : ColBits) (s : State) (h0 : P s)
    (hstep : ∀ t c, colBit cols c = false → P t → P (releaseCheck ⟨r, c⟩ t)) : P (releasePhase r cols s) := by
  have key : ∀ (l : List Col) (t : State), P t →
      P (l.foldl (fun s c => if colBit cols c then s else releaseCheck ⟨r, c⟩ s) t) := by
    intro l
    induction l with
    | nil => intro t ht; exact ht
    | cons c l ih =>
      intro t ht
      refine ih _ ?_
      by_cases hc : colBit cols c = true
      · simpa [hc] using ht
      · simpa [hc] using hstep t c (by simpa using hc) ht
  exact key allCols s h0

/-- A property that every qualifying edge of an active row keeps is kept by an edge event. -/
theorem sampleEdges_induction {P : State → Prop} (mask : ColBits) (s : State) (h0 : P s)
    (hstep : ∀ t r c, colBit mask c = true → rowActive t r = true → P t → P (creditKey ⟨r, c⟩ t)) :
    P (sampleEdges mask s) := by
  have rows : ∀ (c : Col), colBit mask c = true → ∀ (l : List Row) (t : State), P t →
      P (l.foldl (fun s r => if rowActive s r then creditKey ⟨r, c⟩ s else s) t) := by
    intro c hc l
    induction l with
    | nil => intro t ht; exact ht
    | cons r l ih =>
      intro t ht
      refine ih _ ?_
      by_cases hr : rowActive t r = true
      · simpa [hr] using hstep t r c hc hr ht
      · simpa [hr] using ht
  have cols : ∀ (l : List Col) (t : State), P t →
      P (l.foldl (fun s c => if colBit mask c then creditColumn s c else s) t) := by
    intro l
    induction l with
    | nil => intro t ht; exact ht
    | cons c l ih =>
      intro t ht
      refine ih _ ?_
      by_cases hc : colBit mask c = true
      · simpa [hc, creditColumn] using rows c hc allRows t ht
      · simpa [hc] using ht
  exact cols allCols s h0

/-- What a TICK answers: the release phase and the advance where there is a current row, and a refusal elsewhere. -/
theorem execTick_cases (cols : ColBits) (s : State) :
    (∃ r, s.rowOut = rowPattern r ∧ execTick cols s = .next (advanceFrom r (releasePhase r cols s)))
      ∨ (curRow s = none ∧ execTick cols s = .refused .noCurrentRow) := by
  unfold execTick
  cases h : curRow s with
  | some r => left; exact ⟨r, pattern_of_curRow h, rfl⟩
  | none => right; exact ⟨rfl, rfl⟩

/-- A TICK on row `r` (R65). -/
theorem exec_tick_of_pattern {s : State} {r : Row} (h : s.rowOut = rowPattern r) (cols : ColBits) :
    exec (.tick cols) s = .next (advanceFrom r (releasePhase r cols s)) := by
  simp [exec, execTick, curRow_of_pattern h]

/-- The four constraints of R12. -/
theorem meetsR12_iff (c : Config) :
    meetsR12 c = true ↔ c.longClickThreshold < cntMax c ∧ 1 ≤ c.shortClickThreshold
      ∧ c.maxDeviation ≤ c.longClickThreshold ∧ 1 ≤ c.longClickThreshold := by
  simp [meetsR12, and_assoc]

/-- The legality test is R12 and R13's bound on `SHORT_CLICK_THRESHOLD`. -/
theorem configLegal_iff (c : Config) :
    configLegal c = true ↔ meetsR12 c = true ∧ c.shortClickThreshold ≤ cntMax c := by
  simp [configLegal, shortInRange]

/-- A legal configuration meets R12. -/
theorem meetsR12_of_legal {c : Config} (h : configLegal c = true) : meetsR12 c = true := ((configLegal_iff c).mp h).1

/-- Where R12 holds a counter arrives at the threshold only from one below it (R12, R78, R79). -/
theorem satInc_eq_threshold_iff {c : Config} (h : meetsR12 c = true) (v : Nat) :
    satInc c v = c.longClickThreshold ↔ v + 1 = c.longClickThreshold := by
  have := (meetsR12_iff c).mp h
  simp only [satInc]
  split <;> omega

/-- What a step answers (R100, R113): it waits, it runs the first word's operation, or it refuses. -/
theorem step_cases (s : State) :
    (meetsR12 s.cfg = false ∧ step s = .refused .illegalConfiguration)
      ∨ (meetsR12 s.cfg = true ∧ configLegal s.cfg = false ∧ step s = .refused .shortThresholdAboveCounterRange)
      ∨ (configLegal s.cfg = true ∧ s.stimulus = [] ∧ step s = .next s)
      ∨ (∃ w rest i, configLegal s.cfg = true ∧ s.stimulus = w :: rest ∧ decode w = .op i
          ∧ step s = exec i s.afterWord)
      ∨ (∃ w rest why, configLegal s.cfg = true ∧ s.stimulus = w :: rest ∧ decode w = .illegal why
          ∧ step s = .refused (.illegalStimulus w why)) := by
  by_cases hc : configLegal s.cfg = true
  · cases hw : s.stimulus with
    | nil => right; right; left; simp [step, admitNext, hc, hw]
    | cons w rest =>
      cases hd : decode w with
      | op i => right; right; right; left; exact ⟨w, rest, i, hc, rfl, hd, by simp [step, admitNext, hc, hw, hd]⟩
      | illegal why => right; right; right; right; exact ⟨w, rest, why, hc, rfl, hd, by simp [step, admitNext, hc, hw, hd]⟩
  · by_cases hm : meetsR12 s.cfg = true
    · right; left; simp [step, admitNext, hc, hm]
    · left; simp [step, admitNext, hc, hm]

end Sys2Proof.Machine
end

