-- ==== Sys2Proof/Laws/Frames.lean ====
section
/-! SUPPORT. What each shared operation of EDGE and of TICK leaves alone, and what it does to the counters. -/

namespace Sys2Proof.Machine

variable (k j : Key) (s : State) (r : Row) (c : Col) (v : ColBits)

@[simp] theorem longPress_cfg : (longPress k s).cfg = s.cfg := by
  rcases longPress_cases k s with ⟨p, -, h⟩ | ⟨-, h⟩ <;> simp [h]

@[simp] theorem longPress_rowOut : (longPress k s).rowOut = s.rowOut := by
  rcases longPress_cases k s with ⟨p, -, h⟩ | ⟨-, h⟩ <;> simp [h]

@[simp] theorem longPress_stimulus : (longPress k s).stimulus = s.stimulus := by
  rcases longPress_cases k s with ⟨p, -, h⟩ | ⟨-, h⟩ <;> simp [h]

/-- The detector changes no counter (R82). -/
@[simp] theorem longPress_count : (longPress k s).count j = s.count j := by
  rcases longPress_cases k s with ⟨p, -, h⟩ | ⟨-, h⟩ <;> simp [h]

@[simp] theorem creditKey_cfg : (creditKey k s).cfg = s.cfg := by
  rcases creditKey_cases k s with ⟨-, h⟩ | ⟨-, h⟩ <;> simp [h]

@[simp] theorem creditKey_rowOut : (creditKey k s).rowOut = s.rowOut := by
  rcases creditKey_cases k s with ⟨-, h⟩ | ⟨-, h⟩ <;> simp [h]

@[simp] theorem creditKey_stimulus : (creditKey k s).stimulus = s.stimulus := by
  rcases creditKey_cases k s with ⟨-, h⟩ | ⟨-, h⟩ <;> simp [h]

/-- A qualifying edge adds one to its own counter, with saturation, and touches no other (R76, R78). -/
@[simp] theorem creditKey_count :
    (creditKey k s).count j = if j = k then satInc s.cfg (s.count k) else s.count j := by
  rcases creditKey_cases k s with ⟨-, h⟩ | ⟨-, h⟩ <;> simp [h]

@[simp] theorem rowActive_creditKey : rowActive (creditKey k s) r = rowActive s r := by simp [rowActive]

@[simp] theorem releaseCheck_cfg : (releaseCheck k s).cfg = s.cfg := by
  rcases releaseCheck_cases k s with ⟨-, h⟩ | ⟨-, p, -, h⟩ | ⟨-, -, h⟩ | ⟨-, -, h⟩ <;> simp [h]

@[simp] theorem releaseCheck_rowOut : (releaseCheck k s).rowOut = s.rowOut := by
  rcases releaseCheck_cases k s with ⟨-, h⟩ | ⟨-, p, -, h⟩ | ⟨-, -, h⟩ | ⟨-, -, h⟩ <;> simp [h]

@[simp] theorem releaseCheck_stimulus : (releaseCheck k s).stimulus = s.stimulus := by
  rcases releaseCheck_cases k s with ⟨-, h⟩ | ⟨-, p, -, h⟩ | ⟨-, -, h⟩ | ⟨-, -, h⟩ <;> simp [h]

/-- A release-check leaves its key idle (R87). -/
@[simp] theorem releaseCheck_count_self : (releaseCheck k s).count k = 0 := by
  rcases releaseCheck_cases k s with ⟨h0, h⟩ | ⟨-, p, -, h⟩ | ⟨-, -, h⟩ | ⟨-, -, h⟩ <;> simp [h]
  exact h0

/-- A release-check keeps a counter or clears it (R21). -/
theorem releaseCheck_count_cases : (releaseCheck k s).count j = s.count j ∨ (releaseCheck k s).count j = 0 := by
  rcases releaseCheck_cases k s with ⟨-, h⟩ | ⟨-, p, -, h⟩ | ⟨-, -, h⟩ | ⟨-, -, h⟩
  · exact Or.inl (by rw [h])
  · by_cases hp : j = p <;> by_cases hk : j = k <;> simp [h, hp, hk]
  · by_cases hk : j = k <;> simp [h, hk]
  · by_cases hk : j = k <;> simp [h, hk]

@[simp] theorem releasePhase_cfg : (releasePhase r v s).cfg = s.cfg :=
  releasePhase_induction (P := fun t => t.cfg = s.cfg) r v s rfl fun t c _ h => by simp [h]

@[simp] theorem releasePhase_rowOut : (releasePhase r v s).rowOut = s.rowOut :=
  releasePhase_induction (P := fun t => t.rowOut = s.rowOut) r v s rfl fun t c _ h => by simp [h]

@[simp] theorem releasePhase_stimulus : (releasePhase r v s).stimulus = s.stimulus :=
  releasePhase_induction (P := fun t => t.stimulus = s.stimulus) r v s rfl fun t c _ h => by simp [h]

@[simp] theorem sampleEdges_cfg : (sampleEdges v s).cfg = s.cfg :=
  sampleEdges_induction (P := fun t => t.cfg = s.cfg) v s rfl fun t r c _ _ h => by simp [h]

@[simp] theorem sampleEdges_rowOut : (sampleEdges v s).rowOut = s.rowOut :=
  sampleEdges_induction (P := fun t => t.rowOut = s.rowOut) v s rfl fun t r c _ _ h => by simp [h]

@[simp] theorem sampleEdges_stimulus : (sampleEdges v s).stimulus = s.stimulus :=
  sampleEdges_induction (P := fun t => t.stimulus = s.stimulus) v s rfl fun t r c _ _ h => by simp [h]

/-- With exactly one row low, a set column credits exactly the key of that row (R73). -/
theorem creditColumn_of_pattern (h : s.rowOut = rowPattern r) : creditColumn s c = creditKey ⟨r, c⟩ s := by
  have ha : ∀ t : State, t.rowOut = s.rowOut → ∀ i, rowActive t i = decide (i = r) :=
    fun t ht i => rowActive_of_pattern (ht.trans h) i
  have h0 := ha s rfl
  simp only [creditColumn, allRows, List.foldl_cons, List.foldl_nil]
  have four : ∀ r : Row, r = 0 ∨ r = 1 ∨ r = 2 ∨ r = 3 := by decide
  rcases four r with rfl | rfl | rfl | rfl <;> simp [h0]

/-- With exactly one row low, an edge event credits the set columns of that row, ascending (R72, R73). -/
theorem sampleEdges_of_pattern (h : s.rowOut = rowPattern r) :
    sampleEdges v s =
      [(0 : Col), 1, 2].foldl (fun s c => if colBit v c then creditKey ⟨r, c⟩ s else s) s := by
  have step : ∀ (l : List Col) (t : State), t.rowOut = rowPattern r →
      l.foldl (fun s c => if colBit v c then creditColumn s c else s) t =
        l.foldl (fun s c => if colBit v c then creditKey ⟨r, c⟩ s else s) t := by
    intro l
    induction l with
    | nil => intro t _; rfl
    | cons c l ih =>
      intro t ht
      simp only [List.foldl_cons]
      rw [creditColumn_of_pattern t r c ht]
      exact ih _ (by split <;> simp [ht])
  exact step _ s h

end Sys2Proof.Machine
end

