-- ==== Sys2Proof/Laws/Run.lean ====
section
/-! SUPPORT. Runs of many steps, and what one operation can do, said once. -/

namespace Sys2Proof.Machine

@[simp] theorem runSteps_zero (s : State) : runSteps 0 s = .next s := rfl

/-- The first step of a run. -/
theorem runSteps_succ (n : Nat) (s : State) :
    runSteps (n + 1) s =
      match step s with | .next t => runSteps n t | .fault f => .fault f | .refused f => .refused f := by
  have h : ∀ o : Host.Outcome State Fault Refusal, step s = o →
      runSteps (n + 1) s =
        match o with | .next t => runSteps n t | .fault f => .fault f | .refused f => .refused f := by
    intro o ho
    have hc : Sys2Proof.core.step s = o := ho
    simp only [runSteps, Host.Core.run, hc]
    cases o <;> rfl
  exact h _ rfl

/-- A run whose first step answers a next state. -/
theorem runSteps_succ_next {n : Nat} {s t : State} (h : step s = .next t) :
    runSteps (n + 1) s = runSteps n t := by
  rw [runSteps_succ, h]

/-- A run whose first step refuses has refused, however long it is. -/
theorem runSteps_succ_refused {n : Nat} {s : State} {f : Refusal} (h : step s = .refused f) :
    runSteps (n + 1) s = .refused f := by
  rw [runSteps_succ, h]

/-- A run goes on from the state its first steps reach. -/
theorem runSteps_add_next {m : Nat} {s t : State} (h : runSteps m s = .next t) (n : Nat) :
    runSteps (m + n) s = runSteps n t := by
  induction m generalizing s with
  | zero => cases h; simp
  | succ m ih =>
    rw [Nat.add_right_comm]
    cases hs : step s with
    | next u => rw [runSteps_succ_next hs] at h ⊢; exact ih h
    | fault f => exact nomatch f
    | refused f => rw [runSteps_succ_refused hs] at h; cases h

@[simp] theorem runOps_nil (s : State) : runOps [] s = .next s := rfl

/-- A run of operations whose first answers a next state. -/
theorem runOps_cons_next {i : Instr} {s t : State} (h : exec i s = .next t) (ops : List Instr) :
    runOps (i :: ops) s = runOps ops t := by
  rw [runOps, h]

/-- What an operation that answers a next state did: exactly one of the four. -/
theorem exec_next_cases {i : Instr} {s t : State} (h : exec i s = .next t) :
    (i = .nop ∧ t = s) ∨ (i = .reset ∧ t = resetBlock s)
      ∨ (∃ mask, i = .edge mask ∧ t = sampleEdges mask s)
      ∨ (∃ cols r, i = .tick cols ∧ s.rowOut = rowPattern r ∧ t = advanceFrom r (releasePhase r cols s)) := by
  cases i with
  | nop => left; exact ⟨rfl, by simpa [exec, execNop] using h.symm⟩
  | reset => right; left; exact ⟨rfl, by simpa [exec, execReset] using h.symm⟩
  | edge mask => right; right; left; exact ⟨mask, rfl, by simpa [exec, execEdge] using h.symm⟩
  | tick cols =>
    right; right; right
    rcases execTick_cases cols s with ⟨r, hr, he⟩ | ⟨-, he⟩
    · exact ⟨cols, r, rfl, hr, by simpa [exec, he] using h.symm⟩
    · simp [exec, he] at h

/-- What a step that answers a next state did: it waited, or it ran the first word's operation. -/
theorem step_next_cases {s t : State} (h : step s = .next t) :
    (s.stimulus = [] ∧ t = s)
      ∨ (∃ w rest i, s.stimulus = w :: rest ∧ decode w = .op i ∧ exec i s.afterWord = .next t) := by
  rcases step_cases s with ⟨-, hs⟩ | ⟨-, -, hs⟩ | ⟨-, hn, hs⟩ | ⟨w, rest, i, -, hw, hd, hs⟩ | ⟨w, rest, why, -, -, -, hs⟩
  · simp [hs] at h
  · simp [hs] at h
  · left; exact ⟨hn, by simpa [hs] using h.symm⟩
  · right; exact ⟨w, rest, i, hw, hd, hs ▸ h⟩
  · simp [hs] at h

end Sys2Proof.Machine
end

