-- ==== Sys2Proof/Laws/Arbiter.lean ====
section
/-! SUPPORT. The tick stream and the edge stream of a sequence of operations, one operation at a time. -/

namespace Sys2Proof.Machine

variable (ops more : List Instr) (v : ColBits)

@[simp] theorem tickStream_nil : tickStream [] = [] := rfl
@[simp] theorem tickStream_nop : tickStream (.nop :: ops) = tickStream ops := rfl
@[simp] theorem tickStream_reset : tickStream (.reset :: ops) = tickStream ops := rfl
@[simp] theorem tickStream_edge : tickStream (.edge v :: ops) = tickStream ops := rfl
@[simp] theorem tickStream_tick : tickStream (.tick v :: ops) = v :: tickStream ops := rfl
@[simp] theorem tickStream_append : tickStream (ops ++ more) = tickStream ops ++ tickStream more :=
  List.filterMap_append

@[simp] theorem edgeStream_nil : edgeStream [] = [] := rfl
@[simp] theorem edgeStream_nop : edgeStream (.nop :: ops) = edgeStream ops := rfl
@[simp] theorem edgeStream_reset : edgeStream (.reset :: ops) = edgeStream ops := rfl
@[simp] theorem edgeStream_tick : edgeStream (.tick v :: ops) = edgeStream ops := rfl
@[simp] theorem edgeStream_edge : edgeStream (.edge v :: ops) = v :: edgeStream ops := rfl
@[simp] theorem edgeStream_append : edgeStream (ops ++ more) = edgeStream ops ++ edgeStream more :=
  List.filterMap_append

/-- An admissible sequence has exactly the given streams (R101, R103). -/
theorem admissible_iff (ticks edges : List ColBits) :
    admissible ticks edges ops = true ↔ tickStream ops = ticks ∧ edgeStream ops = edges := by
  simp [admissible]

end Sys2Proof.Machine
end

