-- ==== Sys2Proof/Laws/Assembler.lean ====
section
/-! SUPPORT. The tokens of a printed operation, and of a decimal numeral, and what the assembler does with them. -/

namespace Sys2Proof.Machine

/-- The tokens of an operation's text (R62). -/
def instrTokens : Instr → List Token
  | .reset => [resetWord]
  | .nop => [nopWord]
  | .tick cols => [tickWord, printOperand cols]
  | .edge mask => [edgeWord, printOperand mask]

/-- A printed operand reads back as itself (R62). -/
theorem operand_printOperand (v : ColBits) : operand (printOperand v) = some v := by revert v; decide

/-- A printed operand is `0b` and three binary digits. -/
theorem printOperand_cases (v : ColBits) :
    ∃ x y z, printOperand v = ['0', 'b', x, y, z] ∧ (x = '0' ∨ x = '1') ∧ (y = '0' ∨ y = '1') ∧ (z = '0' ∨ z = '1') := by
  refine ⟨_, _, _, rfl, ?_, ?_, ?_⟩ <;> (beta_reduce; split <;> simp)

/-- The text of an operation on a line of its own gives its tokens. -/
theorem lexFrom_printInstr (i : Instr) (rest : List Char) :
    lexFrom false [] (printInstr i ++ '\n' :: rest) = instrTokens i ++ lexFrom false [] rest := by
  cases i with
  | nop => rfl
  | reset => rfl
  | tick v =>
    obtain ⟨x, y, z, h, hx, hy, hz⟩ := printOperand_cases v
    simp only [printInstr, instrTokens, h]
    rcases hx with rfl | rfl <;> rcases hy with rfl | rfl <;> rcases hz with rfl | rfl <;> rfl
  | edge v =>
    obtain ⟨x, y, z, h, hx, hy, hz⟩ := printOperand_cases v
    simp only [printInstr, instrTokens, h]
    rcases hx with rfl | rfl <;> rcases hy with rfl | rfl <;> rcases hz with rfl | rfl <;> rfl

/-- The tokens of an operation, at the start of a line, add that operation. -/
theorem assembleTokens_instrTokens (outer : List (Nat × List Instr)) (done : List Instr) (i : Instr) (ts : List Token) :
    assembleTokens ⟨.line, outer, done⟩ (instrTokens i ++ ts) = assembleTokens ⟨.line, outer, done ++ [i]⟩ ts := by
  cases i with
  | nop => rfl
  | reset => rfl
  | tick v =>
    simp [instrTokens, assembleTokens, asmToken, asmLine, resetWord, nopWord, tickWord, operand_printOperand, AsmState.add]
  | edge v =>
    simp [instrTokens, assembleTokens, asmToken, asmLine, resetWord, nopWord, tickWord, edgeWord, operand_printOperand,
      AsmState.add]

/-- A decimal digit has a value. -/
theorem digit_of_isDigit {c : Char} (h : c.isDigit = true) : digit c = some (c.toNat - '0'.toNat) := by
  have h' : '0' ≤ c ∧ c ≤ '9' := by
    simp only [Char.isDigit, Bool.and_eq_true, decide_eq_true_eq] at h; exact h
  simp [digit, h']

/-- The decimal numeral of a number reads back as that number (R62, R63). -/
theorem decimal_toDigits (n : Nat) : decimal (Nat.toDigits 10 n) = some n := by
  have fold : ∀ (l : List Char) (m : Nat), (∀ c ∈ l, c.isDigit = true) →
      l.foldl (fun n c => n.bind fun n => (digit c).map fun d => 10 * n + d) (some m) = some (Nat.ofDigitChars 10 l m) := by
    intro l
    induction l with
    | nil => intro m _; rfl
    | cons c l ih =>
      intro m h
      rw [List.foldl_cons, Option.bind_some, digit_of_isDigit (h c (by simp)), Option.map_some,
        ih _ fun d hd => h d (by simp [hd])]
      rfl
  rw [decimal, if_neg (by simp), fold _ _ fun c => Nat.isDigit_of_mem_toDigits (by omega) (by omega),
    Nat.ofDigitChars_toDigits (by omega) (by omega)]

/-- Characters that end no token and open no comment are read into the token. -/
theorem lexFrom_digits (l cur rest : List Char) (h : ∀ c ∈ l, c.isDigit = true) :
    lexFrom false cur (l ++ rest) = lexFrom false (cur ++ l) rest := by
  induction l generalizing cur with
  | nil => simp
  | cons c l ih =>
    have hc := h c (by simp)
    have ne : ∀ d : Char, d.isDigit = false → c ≠ d := by rintro d hd rfl; simp [hc] at hd
    rw [List.cons_append, lexFrom, if_neg (ne _ (by decide)), if_neg (by simp), if_neg (ne _ (by decide)),
      if_neg (by simp [ne ' ' (by decide), ne '\t' (by decide), ne '\r' (by decide)]),
      if_neg (by simp [ne openBrace (by decide), ne closeBrace (by decide)]), ih _ fun d hd => h d (by simp [hd])]
    simp

end Sys2Proof.Machine
end

