-- ==== Sys2Proof/Laws/PerInstr.lean ====
section
/-! SUPPORT. Statements made per operation: its word is legal and its reserved field is 0 (R51, R52, R55). -/

namespace Sys2Proof.Laws.EncodesLegally

/-- The operation is well formed, its word is legal by R55, and the word's reserved field is `000` (R51). -/
def Statement (i : Instr) : Prop :=
  i.wellFormed = true ∧ StimulusWord.legal (encode i) = true ∧ rsvField (encode i) = 0b000#3

theorem nop : Statement .nop := by unfold Statement; decide

theorem tick (cols : ColBits) : Statement (.tick cols) := by
  refine ⟨rfl, ?_⟩
  revert cols
  decide

theorem edge (mask : ColBits) : Statement (.edge mask) := by
  refine ⟨rfl, ?_⟩
  revert mask
  decide

theorem reset : Statement .reset := by unfold Statement; decide

end Sys2Proof.Laws.EncodesLegally
end

