-- ==== Sys2Proof/Tests/Slice0.lean ====
section
/-! SUPPORT. Tests of the model on the spec's vectors (95_test_vectors.md), and for each statement with hypotheses a
witness that meets them. -/

namespace Sys2Proof.Tests

open Sys2Proof.Machine

/-- A state at the default configuration with current row `r` and these counters, every other counter 0. -/
def st (r : Row) (counts : List (Key × Nat)) : State :=
  counts.foldl (fun s p => s.setCount p.1 p.2) { State.reset with rowOut := rowPattern r }

/-- The state an operation answers, if it answers one. -/
def after (o : Host.Outcome State Fault Refusal) : Option State :=
  match o with | .next t => some t | .fault _ => none | .refused _ => none

/-- The event words emitted by an operation from a state with none. -/
def reported (i : Instr) (s : State) : Option (List EventWord) := (after (exec i s)).map fun t => t.events.map eventWord

/-! ## Well-formedness and decoding (words written out from R51 to R55) -/

/-- R53, R54: the largest operands are legal. -/
theorem test_wellFormed_operands :
    (Instr.tick 0b111#3).wellFormed = true ∧ (Instr.edge 0b000#3).wellFormed = true := by decide

/-- R55: a reserved bit, an argument of NOP, an argument of RESET are each refused by the check. -/
theorem test_legal_refuses_reserved_bits : StimulusWord.legal 0x48#8 = false := by decide
theorem test_legal_refuses_nop_argument : StimulusWord.legal 0x01#8 = false := by decide
theorem test_legal_refuses_reset_argument : StimulusWord.legal 0xC1#8 = false := by decide

/-- R60: a chord of a key with itself is no event. -/
theorem test_event_wellFormed_refuses_equal_keys :
    eventWellFormed (.chordShort ⟨1, 1⟩ ⟨1, 1⟩) = false ∧ eventWellFormed (.chordLong ⟨3, 2⟩ ⟨3, 2⟩) = false := by decide

/-- R12: each constraint broken alone is refused, and the smallest legal width is 5. -/
theorem test_configLegal_refuses_small_width : configLegal { Config.reference with counterWidth := 4 } = false := by decide
theorem test_configLegal_refuses_zero_short : configLegal { Config.reference with shortClickThreshold := 0 } = false := by decide
theorem test_configLegal_refuses_large_deviation : configLegal { Config.reference with maxDeviation := 26 } = false := by decide
theorem test_configLegal_refuses_zero_long :
    configLegal { Config.reference with longClickThreshold := 0, maxDeviation := 0 } = false := by decide
theorem test_configLegal_accepts_width_five : configLegal { Config.reference with counterWidth := 5 } = true := by decide

theorem test_decode_nop : decode 0b00000000#8 = .op .nop := by decide
theorem test_decode_tick : decode 0b01000101#8 = .op (.tick 0b101#3) := by decide
theorem test_decode_edge : decode 0b10000011#8 = .op (.edge 0b011#3) := by decide
theorem test_decode_reset : decode 0b11000000#8 = .op .reset := by decide
theorem test_decode_rejects :
    decode 0x08#8 = .illegal .reservedBits ∧ decode 0xBF#8 = .illegal .reservedBits
      ∧ decode 0x01#8 = .illegal .nopArgument ∧ decode 0xC1#8 = .illegal .resetArgument := by decide

/-! ## One step of each operation -/

/-- Vector X3. -/
theorem test_nop_X3 : exec .nop (st 2 [(⟨0, 1⟩, 5)]) = .next (st 2 [(⟨0, 1⟩, 5)]) := rfl

/-- Vector X1. -/
theorem test_reset_X1 : after (exec .reset (st 3 [(⟨1, 1⟩, 7)])) = some State.reset := by decide

/-- Vector X2: `RESET_ROW = 2`. -/
theorem test_reset_X2 :
    after (exec .reset { st 0 [(⟨0, 0⟩, 30)] with cfg := { Config.reference with resetRow := 2 } })
      = some (State.resetWith { Config.reference with resetRow := 2 }) := by decide

/-- Vector T9: row-major first partner, third key kept. -/
theorem test_tick_T9 :
    after (exec (.tick 0b000#3) (st 2 [(⟨2, 2⟩, 3), (⟨0, 1⟩, 4), (⟨3, 0⟩, 1)]))
      = some { st 3 [(⟨3, 0⟩, 1)] with events := [.chordShort ⟨2, 2⟩ ⟨0, 1⟩] } := by decide

/-- Vector T12: three released keys, in column order. -/
theorem test_tick_T12 :
    reported (.tick 0b000#3) (st 0 [(⟨0, 0⟩, 2), (⟨0, 1⟩, 3), (⟨0, 2⟩, 4)]) = some [0x101#10, 0x02F#10] := by decide

/-- Vector E10: two crossings, two events. -/
theorem test_edge_E10 :
    after (exec (.edge 0b011#3) (st 0 [(⟨0, 0⟩, 24), (⟨0, 1⟩, 24)]))
      = some { st 0 [(⟨0, 0⟩, 25), (⟨0, 1⟩, 25)] with
          events := [.chordLong ⟨0, 0⟩ ⟨0, 1⟩, .chordLong ⟨0, 1⟩ ⟨0, 0⟩] } := by decide

/-- Vector E14: the column order can be observed. -/
theorem test_edge_E14 : reported (.edge 0b101#3) (st 1 [(⟨1, 0⟩, 24), (⟨1, 2⟩, 21)]) = some [0x23F#10] := by decide

/-- A word placed in front of the input is the one the next step runs (log entry 2). -/
theorem test_step_runs_placed_word :
    decodeTableWord 8 0x47 = some (.tick 0b111#3)
      ∧ step (State.reset.withFetchWord 8 0x47) = exec (.tick 0b111#3) State.reset := ⟨by decide, rfl⟩

/-! ## The ASCII codes, printing, the assembler and the environment -/

/-- R61: the ASCII codes of `0`, `9`, `*` and `#`. -/
theorem test_symByte :
    symByte ⟨3, 1⟩ = 0x30#8 ∧ symByte ⟨2, 2⟩ = 0x39#8 ∧ symByte ⟨3, 0⟩ = 0x2A#8 ∧ symByte ⟨3, 2⟩ = 0x23#8 := by decide

/-- R62: the printed form `chord_short('5','8')`. -/
theorem test_printCall :
    printCall (sinkCall (.chordShort ⟨1, 1⟩ ⟨2, 1⟩)) =
      "chord_short(".toList ++ [quoteChar, '5', quoteChar, ',', quoteChar, '8', quoteChar] ++ [')'] := by decide

/-- R62: a comment, the decimal form of an operand, and an operand that is missing, extra or out of range. -/
theorem test_assemble_forms :
    assemble ['T', 'I', 'C', 'K', ' ', '5', ' ', ';', 'x', '\n', 'N', 'O', 'P'] = some [.tick 0b101#3, .nop]
      ∧ assemble ['E', 'D', 'G', 'E', '\n', 'N', 'O', 'P'] = none ∧ assemble ['N', 'O', 'P', ' ', '0'] = none
      ∧ assemble ['E', 'D', 'G', 'E', ' ', '8'] = none := by decide

/-- R134: at 100 Hz a window is 10 ms, a cycle 40 ms, and 25 counts take 1.0 s. -/
theorem test_timing :
    windowMicros Config.reference = 10000 ∧ cycleMicros Config.reference = 40000
      ∧ holdMicros Config.reference 25 = 1000000 := by decide

/-- The keys '5' and '8', which share a column on adjacent rows, both held. -/
def held58 : KeyMatrix :=
  ⟨#v[#v[false, false, false], #v[false, true, false], #v[false, true, false], #v[false, false, false]]⟩

/-- R131: '8' gets no edge while '5' is held, and '5' gets one. -/
theorem test_masking : strobeEdges held58 1 = 0b000#3 ∧ strobeEdges held58 0 = 0b010#3 := by decide

/-! ## Witnesses: each theorem meets the hypotheses of the statement it names, together -/

/-- A state on row 0 with this input. -/
def fed (words : List StimulusWord) : State := { State.reset with stimulus := words }

theorem fed_safe (words : List StimulusWord) : Safe (fed words) :=
  ⟨by show configLegal Config.reference = true; decide, ⟨0, rfl⟩, fun k => by
    show (State.resetWith Config.reference).count k ≤ _
    simp, fun _ he => nomatch he⟩

theorem witness_DecodeAndEncodeAgree : (Instr.tick 0b110#3).wellFormed = true := by decide

theorem witness_EventWordsRoundTrip :
    eventWellFormed (.chordShort ⟨1, 1⟩ ⟨2, 1⟩) = true ∧ eventOfWord 0x147#10 = some (.chordShort ⟨1, 1⟩ ⟨2, 1⟩) := by
  decide

/-- The least count, and a numeral of two digits. -/
theorem witness_RepeatExpandsItsLines :
    1 ≤ 1 ∧ Nat.toDigits 10 1 = ['1'] ∧ 1 ≤ 12 ∧ Nat.toDigits 10 12 = ['1', '2'] := by decide

theorem witness_RepeatsMayNest : 1 ≤ 2 ∧ 1 ≤ 10 ∧ [Instr.edge 0b001#3] ≠ [] := by decide

theorem witness_ResetIsSafe : configLegal Config.reference = true := by decide

theorem witness_FirstOperationsAfterReset :
    meetsR12 { Config.reference with counterWidth := 5, resetRow := 3 } = true := by decide

theorem witness_ResetInTheResetStateChangesNothing :
    (∀ k, State.reset.count k = 0) ∧ State.reset.rowOut = rowPattern State.reset.cfg.resetRow :=
  ⟨fun k => State.resetWith_count k Config.reference, rfl⟩

/-- One state for each clause of the table of R66. -/
theorem witness_TickAdvancesTheRow :
    (OneRowLow (st 0 []) ∧ (st 0 []).rowOut = 0b1110#4) ∧ (OneRowLow (st 1 []) ∧ (st 1 []).rowOut = 0b1101#4)
      ∧ (OneRowLow (st 2 []) ∧ (st 2 []).rowOut = 0b1011#4) ∧ (OneRowLow (st 3 []) ∧ (st 3 []).rowOut = 0b0111#4) :=
  ⟨⟨⟨0, rfl⟩, rfl⟩, ⟨⟨1, rfl⟩, rfl⟩, ⟨⟨2, rfl⟩, rfl⟩, ⟨⟨3, rfl⟩, rfl⟩⟩

theorem witness_TicksGoRoundTheRows :
    configLegal (fed [0x47#8, 0x81#8, 0x40#8]).cfg = true ∧ (fed [0x47#8, 0x81#8, 0x40#8]).rowOut = rowPattern 0
      ∧ Instr.reset ∉ [Instr.tick 0b111#3, .edge 0b001#3]
      ∧ (fed [0x47#8, 0x81#8, 0x40#8]).stimulus = [Instr.tick 0b111#3, .edge 0b001#3].map encode ++ [0x40#8] := by decide

/-- The sample that releases only column 0. -/
theorem witness_TickOfOneReleasedKey_operands :
    (st 0 []).rowOut = rowPattern 0 ∧ ∀ j : Col, (0b110#3 : ColBits)[j] = decide (j ≠ 0) := by decide

/-- The clauses of `TickOfOneReleasedKey` at their boundary values: idle, a short chord (counts 9 and 1), a single
short (count 1), and the silent clear (count 10). -/
theorem witness_TickOfOneReleasedKey_idle : (st 0 []).count ⟨0, 0⟩ = 0 := by decide
theorem witness_TickOfOneReleasedKey_chord :
    let s := st 0 [(⟨0, 0⟩, 9), (⟨3, 2⟩, 1)]
    (0 < s.count ⟨0, 0⟩ ∧ s.count ⟨0, 0⟩ < s.cfg.shortClickThreshold) ∧ (⟨3, 2⟩ : Key) ≠ ⟨0, 0⟩
      ∧ (0 < s.count ⟨3, 2⟩ ∧ s.count ⟨3, 2⟩ < s.cfg.shortClickThreshold)
      ∧ ∀ (r : Row) (c : Col), keyIndex ⟨r, c⟩ < keyIndex ⟨3, 2⟩ → (⟨r, c⟩ : Key) ≠ ⟨0, 0⟩ →
          ¬ (0 < s.count ⟨r, c⟩ ∧ s.count ⟨r, c⟩ < s.cfg.shortClickThreshold) := by decide
theorem witness_TickOfOneReleasedKey_single :
    let s := st 0 [(⟨0, 0⟩, 1), (⟨1, 0⟩, 10)]
    (0 < s.count ⟨0, 0⟩ ∧ s.count ⟨0, 0⟩ < s.cfg.shortClickThreshold)
      ∧ ∀ (r : Row) (c : Col), (⟨r, c⟩ : Key) ≠ ⟨0, 0⟩ →
          ¬ (0 < s.count ⟨r, c⟩ ∧ s.count ⟨r, c⟩ < s.cfg.shortClickThreshold) := by decide
theorem witness_TickOfOneReleasedKey_silent :
    0 < (st 0 [(⟨0, 0⟩, 10)]).count ⟨0, 0⟩
      ∧ (st 0 [(⟨0, 0⟩, 10)]).cfg.shortClickThreshold ≤ (st 0 [(⟨0, 0⟩, 10)]).count ⟨0, 0⟩ := by decide

theorem witness_TickChecksColumnsInAscendingOrder : OneRowLow (st 3 []) := ⟨3, rfl⟩

/-- The clauses of `TickCounterEffectAndFrame` in the state of vector T14, whose TICK names the held key '2' as the
partner of '1': a released key, a partner, and a key that is neither. -/
theorem witness_TickCounterEffectAndFrame :
    let s := st 0 [(⟨0, 0⟩, 2), (⟨0, 1⟩, 5)]
    s.rowOut = rowPattern 0 ∧ (0b010#3 : ColBits)[(0 : Col)] = false
      ∧ (after (exec (.tick 0b010#3) s)).map (newEvents s) = some [.chordShort ⟨0, 0⟩ ⟨0, 1⟩]
      ∧ ¬ ((⟨1, 0⟩ : Key).row = 0 ∧ (0b010#3 : ColBits)[(0 : Col)] = false) := by decide

theorem witness_TickReports :
    (st 0 [(⟨0, 0⟩, 2)]).rowOut = rowPattern 0
      ∧ exec (.tick 0b000#3) (st 0 [(⟨0, 0⟩, 2)])
          = .next (advanceFrom 0 (releasePhase 0 0b000#3 (st 0 [(⟨0, 0⟩, 2)]))) := ⟨rfl, rfl⟩

/-- Both sides of `TickIsRefusedOnlyWithoutACurrentRow` occur: with no line low, a TICK is refused. -/
theorem witness_TickIsRefusedOnlyWithoutACurrentRow :
    exec (.tick 0b000#3) { State.reset with rowOut := 0b1111#4 } = .refused .noCurrentRow := rfl

theorem witness_EdgeReportsExactlyTheThresholdCrossings :
    meetsR12 (st 1 [(⟨1, 1⟩, 24)]).cfg = true ∧ (st 1 [(⟨1, 1⟩, 24)]).rowOut = rowPattern 1 := by decide

/-- The two clauses of `EdgeOfOneKeyAtTheThreshold` at their boundary: a partner at 22 (vector E5) and at 21
(vector E6). -/
theorem witness_EdgeOfOneKeyAtTheThreshold_chord :
    let s := st 0 [(⟨0, 0⟩, 24), (⟨3, 2⟩, 22)]
    meetsR12 s.cfg = true ∧ s.rowOut = rowPattern 0 ∧ (∀ j : Col, (0b001#3 : ColBits)[j] = decide (j = 0))
      ∧ s.count ⟨0, 0⟩ + 1 = s.cfg.longClickThreshold ∧ (⟨3, 2⟩ : Key) ≠ ⟨0, 0⟩
      ∧ s.cfg.longClickThreshold - s.cfg.maxDeviation ≤ s.count ⟨3, 2⟩
      ∧ ∀ (r : Row) (c : Col), keyIndex ⟨r, c⟩ < keyIndex ⟨3, 2⟩ → (⟨r, c⟩ : Key) ≠ ⟨0, 0⟩ →
          ¬ s.cfg.longClickThreshold - s.cfg.maxDeviation ≤ s.count ⟨r, c⟩ := by decide
theorem witness_EdgeOfOneKeyAtTheThreshold_single :
    let s := st 0 [(⟨0, 0⟩, 24), (⟨3, 2⟩, 21)]
    meetsR12 s.cfg = true ∧ s.rowOut = rowPattern 0 ∧ s.count ⟨0, 0⟩ + 1 = s.cfg.longClickThreshold
      ∧ ∀ (r : Row) (c : Col), (⟨r, c⟩ : Key) ≠ ⟨0, 0⟩ →
          ¬ s.cfg.longClickThreshold - s.cfg.maxDeviation ≤ s.count ⟨r, c⟩ := by decide

theorem witness_TwoKeysCrossingTogetherGiveTwoChords :
    let s := st 0 [(⟨0, 0⟩, 24), (⟨0, 1⟩, 24), (⟨3, 2⟩, 21)]
    meetsR12 s.cfg = true ∧ 1 ≤ s.cfg.maxDeviation ∧ s.rowOut = rowPattern 0 ∧ (0 : Col) < 1
      ∧ (∀ j : Col, (0b011#3 : ColBits)[j] = decide (j = 0 ∨ j = 1))
      ∧ s.count ⟨0, 0⟩ + 1 = s.cfg.longClickThreshold ∧ s.count ⟨0, 1⟩ + 1 = s.cfg.longClickThreshold
      ∧ ∀ (r : Row) (c : Col), (⟨r, c⟩ : Key) ≠ ⟨0, 0⟩ → (⟨r, c⟩ : Key) ≠ ⟨0, 1⟩ →
          s.count ⟨r, c⟩ + s.cfg.maxDeviation < s.cfg.longClickThreshold := by decide

/-- Both clauses of `EdgeAfterTickCreditsTheNextRow`: on row 3 the next row is 0. -/
theorem witness_EdgeAfterTickCreditsTheNextRow :
    (st 3 []).rowOut = rowPattern 3 ∧ ((⟨3, 0⟩ : Key).row ≠ Fin.ofNat 4 (3 + 1)) ∧ (0b001#3 : ColBits)[(1 : Col)] = false
      ∧ (⟨0, 0⟩ : Key).row = Fin.ofNat 4 (3 + 1) ∧ (0b001#3 : ColBits)[(0 : Col)] = true := by decide

theorem witness_StepRunsTheDecodedOperation :
    configLegal (fed [0x81#8, 0x40#8]).cfg = true ∧ (fed [0x81#8, 0x40#8]).stimulus = [0x81#8, 0x40#8]
      ∧ decode 0x81#8 = .op (.edge 0b001#3) := by decide

theorem witness_StepRunsThePlacedWord :
    configLegal State.reset.cfg = true ∧ decodeTableWord 8 0x40 = some (.tick 0b000#3) := by decide

theorem witness_StepWaitsForInput : configLegal State.reset.cfg = true ∧ State.reset.stimulus = [] := by decide

/-- Both sides of `IllegalConfigurationIsRefused` occur. -/
theorem witness_IllegalConfigurationIsRefused :
    step (State.resetWith { Config.reference with counterWidth := 4 }) = .refused .illegalConfiguration
      ∧ step State.reset = .next State.reset := ⟨rfl, rfl⟩

theorem witness_IllegalWordIsRefusedForTheRestOfTheRun :
    configLegal (fed [0xFF#8]).cfg = true ∧ (fed [0xFF#8]).stimulus = [0xFF#8] ∧ StimulusWord.legal 0xFF#8 = false := by
  decide

/-- A step that answers a next state, for the statements about any step. -/
theorem witness_step_next : step (fed [0xC0#8]) = .next (fed []) := rfl

/-- Each clause of `CounterWriters`: every operation answers a next state from the reset state. -/
theorem witness_CounterWriters :
    (after (exec (.edge 0b001#3) State.reset)).isSome = true ∧ (after (exec (.tick 0b000#3) State.reset)).isSome = true
      ∧ (after (exec .reset State.reset)).isSome = true ∧ (after (exec .nop State.reset)).isSome = true := by decide

/-- Both clauses of `ReportsAreNeverRead`: a step that answers, and one that refuses. -/
theorem witness_ReportsAreNeverRead :
    step { fed [0x00#8] with events := [] } = .next (fed [])
      ∧ step { fed [0xFF#8] with events := [] } = .refused (.illegalStimulus 0xFF#8 .reservedBits) := ⟨rfl, rfl⟩

/-- `AtMostThreeReportsAnOperation`, with its second clause. -/
theorem witness_AtMostThreeReportsAnOperation :
    OneRowLow State.reset ∧ exec .nop State.reset = .next State.reset := ⟨⟨0, rfl⟩, rfl⟩

/-- `LongFiredIsEnteredExactlyWithItsReport`: a step in which both sides hold. -/
theorem witness_LongFiredIsEnteredExactlyWithItsReport :
    let s := st 0 [(⟨0, 0⟩, 24)]
    meetsR12 s.cfg = true ∧ s.rowOut = rowPattern 0 ∧ phase s ⟨0, 0⟩ = .counting
      ∧ (after (exec (.edge 0b001#3) s)).map (fun t => phase t ⟨0, 0⟩) = some .longFired
      ∧ reported (.edge 0b001#3) s = some [0x20F#10] := by decide

theorem witness_StepKeepsSafe : Safe (fed [0xC0#8]) ∧ step (fed [0xC0#8]) = .next (fed []) :=
  ⟨fed_safe _, rfl⟩

theorem witness_RunsOnLegalWordsNeverStop :
    Safe (fed [0x81#8, 0x40#8]) ∧ ∀ w ∈ (fed [0x81#8, 0x40#8]).stimulus, StimulusWord.legal w = true :=
  ⟨fed_safe _, by decide⟩

/-- A run of one EDGE, in which the counter of '1' is not cleared. -/
theorem witness_AtMostOneLongPressBetweenClears :
    Safe (fed [0x81#8]) ∧ NoClear ⟨0, 0⟩ 1 (fed [0x81#8])
      ∧ runSteps 1 (fed [0x81#8]) = .next (sampleEdges 0b001#3 (fed [])) := by
  refine ⟨fed_safe _, ?_, rfl⟩
  intro m u v hm hu _ h0
  have hm0 : m = 0 := by omega
  subst hm0
  have : u = fed [0x81#8] := by simpa using hu.symm
  subst this
  exact absurd (State.resetWith_count ⟨0, 0⟩ Config.reference) h0

/-- The reset states of two widths, both legal. -/
theorem witness_CounterWidthIsNotObservable :
    Safe (State.resetWith Config.reference) ∧ Safe (State.resetWith { Config.reference with counterWidth := 5 })
      ∧ SameUpToWidth (State.resetWith Config.reference) (State.resetWith { Config.reference with counterWidth := 5 }) :=
  ⟨⟨by decide, ⟨0, rfl⟩, fun k => by simp, fun _ he => nomatch he⟩,
    ⟨by decide, ⟨0, rfl⟩, fun k => by simp, fun _ he => nomatch he⟩,
    ⟨rfl, rfl, rfl, rfl, fun k => Or.inl (by simp)⟩⟩

theorem witness_WidthIsNotObservableAtTheNormativeThresholds :
    Config.reference.longClickThreshold = 25 ∧ Config.reference.shortClickThreshold = 10
      ∧ meetsR12 Config.reference = true ∧ meetsR12 { Config.reference with counterWidth := 5 } = true := by decide

/-- `SHORT_CLICK_THRESHOLD` above the counter range at width 5 (`CNT_MAX = 31`). -/
def wideShort : Config := { Config.reference with shortClickThreshold := 100, counterWidth := 5 }

/-- The bound of log entry 10 at its edge: `SHORT_CLICK_THRESHOLD` equal to `CNT_MAX` is legal, one above is not. -/
theorem witness_LegalConfigurationsAnswerAlikePastSaturation :
    meetsR12 { wideShort with shortClickThreshold := 31 } = true ∧ configLegal { wideShort with shortClickThreshold := 31 } = true
      ∧ meetsR12 { wideShort with shortClickThreshold := 32 } = true
      ∧ configLegal { wideShort with shortClickThreshold := 32 } = false := by decide

theorem witness_ShortThresholdAboveCounterRangeIsRefused :
    step (State.resetWith wideShort) = .refused .shortThresholdAboveCounterRange := rfl

/-- Width 5 (`CNT_MAX = 31`) and width 8 (`CNT_MAX = 255`), on the two sides of `SHORT_CLICK_THRESHOLD = 100`. -/
theorem witness_WidthIsObservableAcrossTheShortThreshold :
    meetsR12 wideShort = true ∧ meetsR12 { wideShort with counterWidth := 8 } = true
      ∧ cntMax wideShort < wideShort.shortClickThreshold
      ∧ wideShort.shortClickThreshold ≤ cntMax { wideShort with counterWidth := 8 } := by decide

/-- Log entry 10: with `SHORT_CLICK_THRESHOLD = 100` the release of a key after more than 31 counts is a short press at
width 5, where the counter stands at 31, and not at width 8. -/
theorem witness_short_threshold_above_counter_range :
    reported (.tick 0b110#3) { st 0 [(⟨0, 0⟩, 31)] with cfg := wideShort } = some [0x00F#10]
      ∧ reported (.tick 0b110#3) { st 0 [(⟨0, 0⟩, 120)] with cfg := { wideShort with counterWidth := 8 } } = some [] := by
  decide +kernel

/-- A sequence that interleaves one tick and one edge event, with a NOP before them. -/
theorem witness_AdmissibleInputsAreTheInterleavings :
    admissible [0b101#3] [0b010#3] [.nop, .edge 0b010#3, .tick 0b101#3] = true := by decide

theorem witness_ArrivalOrderIsOpenAndObservable_two_ticks : (0b101#3 : ColBits) ≠ 0b011#3 := by decide

/-- The key '5' held alone. -/
def held5 : KeyMatrix :=
  ⟨#v[#v[false, false, false], #v[false, true, false], #v[false, false, false], #v[false, false, false]]⟩

theorem witness_OneEdgeACycleForAKeyHeldAlone :
    ∀ j : Key, pressed held5 j = decide (j = ⟨1, 1⟩) := by
  rintro ⟨r, c⟩
  revert r c
  decide

end Sys2Proof.Tests
end

section
/-! The symbols in scan order: reading the keys in scan order reads the symbol table row by row (R16, R17). -/

namespace Sys2Proof.Machine

/-- The symbols of a row's keys, columns ascending, are that row of the table (R17). -/
theorem allCols_map_sym (r : Row) : (allCols.map fun c => sym ⟨r, c⟩) = symTable[r].toList := by
  revert r
  decide

/-- The scan order reads the symbol table row by row (R16, R17). -/
theorem scanOrder_map_sym : scanOrder.map sym = allRows.flatMap fun r => symTable[r].toList := by
  simp only [scanOrder, List.map_flatMap, List.map_map, Function.comp_def, allCols_map_sym]

/-- Settles O3: the scan order reads the table row by row, and the table's rows are the symbols of R17. -/
theorem symbolTable : Obligations.SymbolTable :=
  scanOrder_map_sym.trans (by decide)

end Sys2Proof.Machine
end

section
/-! The writes to a counter (R21): an edge event increments each active key of its columns once, a release phase only
clears, and reset clears all. -/

namespace Sys2Proof.Machine

/-- The increment adds one, or leaves a saturated counter (R78). -/
theorem satInc_cases (c : Config) (v : Nat) : satInc c v = v ∨ satInc c v = v + 1 := by
  unfold satInc
  split
  · left; exact ‹v = cntMax c›.symm
  · right; rfl

/-- Rows credited in turn, none twice: each active one gets its increment in column `c` once (R73). -/
theorem foldl_creditKey_count (c : Col) (k : Key) {l : List Row} (hl : l.Nodup) (s : State) :
    (l.foldl (fun s r => if rowActive s r then creditKey ⟨r, c⟩ s else s) s).count k =
      if k.row ∈ l ∧ k.col = c ∧ rowActive s k.row = true then satInc s.cfg (s.count k) else s.count k := by
  obtain ⟨kr, kc⟩ := k
  induction l generalizing s with
  | nil => simp
  | cons r l ih =>
    obtain ⟨hr, hl⟩ := List.nodup_cons.mp hl
    rw [List.foldl_cons, ih hl]
    by_cases ha : rowActive s r = true
    · by_cases hk : kr = r
      · subst hk; by_cases hc : kc = c <;> simp [ha, hr, hc]
      · simp [ha, hk]
    · by_cases hk : kr = r
      · subst hk; simp [ha]
      · simp [ha, hk]

@[simp] theorem creditColumn_cfg (s : State) (c : Col) : (creditColumn s c).cfg = s.cfg :=
  List.foldlRecOn (motive := fun t : State => t.cfg = s.cfg) allRows _ rfl fun t ht r _ => by split <;> simp [ht]

@[simp] theorem creditColumn_rowOut (s : State) (c : Col) : (creditColumn s c).rowOut = s.rowOut :=
  List.foldlRecOn (motive := fun t : State => t.rowOut = s.rowOut) allRows _ rfl fun t ht r _ => by split <;> simp [ht]

@[simp] theorem rowActive_creditColumn (s : State) (c : Col) (r : Row) :
    rowActive (creditColumn s c) r = rowActive s r := by simp [rowActive]

/-- A set column increments its key of each active row, and touches no other counter (R73, R76). -/
@[simp] theorem creditColumn_count (s : State) (c : Col) (k : Key) :
    (creditColumn s c).count k =
      if k.col = c ∧ rowActive s k.row = true then satInc s.cfg (s.count k) else s.count k := by
  have hmem : ∀ r : Row, r ∈ allRows := by decide
  simpa [creditColumn, hmem] using foldl_creditKey_count c k (l := allRows) (by decide) s

/-- Columns processed in turn, none twice: each set one credits its active keys once (R72, R73). -/
theorem foldl_creditColumn_count (mask : ColBits) (k : Key) {l : List Col} (hl : l.Nodup) (s : State) :
    (l.foldl (fun s c => if colBit mask c then creditColumn s c else s) s).count k =
      if k.col ∈ l ∧ colBit mask k.col = true ∧ rowActive s k.row = true then satInc s.cfg (s.count k)
      else s.count k := by
  obtain ⟨kr, kc⟩ := k
  induction l generalizing s with
  | nil => simp
  | cons c l ih =>
    obtain ⟨hc, hl⟩ := List.nodup_cons.mp hl
    rw [List.foldl_cons, ih hl]
    by_cases hk : kc = c
    · subst hk; by_cases hb : colBit mask kc = true <;> simp [hb, hc]
    · by_cases hb : colBit mask c = true <;> simp [hb, hk]

/-- An edge event increments each key of an active row and a set column once, and touches no other counter (R71 to
R78). -/
theorem sampleEdges_count (mask : ColBits) (s : State) (k : Key) :
    (sampleEdges mask s).count k =
      if colBit mask k.col = true ∧ rowActive s k.row = true then satInc s.cfg (s.count k) else s.count k := by
  have hmem : ∀ c : Col, c ∈ allCols := by decide
  simpa [sampleEdges, hmem] using foldl_creditColumn_count mask k (l := allCols) (by decide) s

/-- An edge event leaves a counter or adds one to it (R21). -/
theorem sampleEdges_count_cases (mask : ColBits) (s : State) (k : Key) :
    (sampleEdges mask s).count k = s.count k ∨ (sampleEdges mask s).count k = s.count k + 1 := by
  rw [sampleEdges_count]
  split
  · exact satInc_cases s.cfg (s.count k)
  · left; rfl

/-- A release phase leaves a counter or clears it (R21). -/
theorem releasePhase_count_cases (r : Row) (cols : ColBits) (s : State) (k : Key) :
    (releasePhase r cols s).count k = s.count k ∨ (releasePhase r cols s).count k = 0 := by
  refine releasePhase_induction (P := fun t => t.count k = s.count k ∨ t.count k = 0) r cols s (.inl rfl) ?_
  intro t c _ ht
  rcases releaseCheck_count_cases ⟨r, c⟩ k t with h | h
  · rwa [h]
  · exact .inr h

@[simp] theorem advanceFrom_count (r : Row) (s : State) (k : Key) : (advanceFrom r s).count k = s.count k := rfl

/-- Settles O40: each operation that answers is one of the four, and each has its own write to a counter. -/
theorem counterWriters : Obligations.CounterWriters := by
  intro s t k
  refine ⟨fun mask h => ?_, fun cols h => ?_, fun h => ?_, fun h => ?_⟩
  · obtain rfl : t = sampleEdges mask s := by simpa using exec_next_cases h
    exact sampleEdges_count_cases mask s k
  · obtain ⟨r, -, rfl⟩ : ∃ r, s.rowOut = rowPattern r ∧ t = advanceFrom r (releasePhase r cols s) := by
      simpa using exec_next_cases h
    simpa using releasePhase_count_cases r cols s k
  · obtain rfl : t = resetBlock s := by simpa using exec_next_cases h
    exact resetBlock_count s k
  · obtain rfl : t = s := by simpa using exec_next_cases h
    rfl

end Sys2Proof.Machine
end

section
/-! The reset state (R20, R23). -/

namespace Sys2Proof.Machine

/-- Settles O12: the reset table is 0 everywhere, and the register is at the pattern of `RESET_ROW`. -/
theorem resetState : Obligations.ResetState := by
  refine ⟨fun c => ⟨fun k => State.resetWith_count k c, ?_⟩, ?_⟩
  · rw [State.resetWith_rowOut, rowPattern]
  · decide

end Sys2Proof.Machine
end

section
/-! The key index (R38): it stays below 12, the index of a key names that key, and 12 and above name none. -/

namespace Sys2Proof.Machine

/-- The twelve keys have the indices below 12 (R38). -/
theorem keyIndex_lt (k : Key) : keyIndex k < 12 := by
  have hr := k.row.isLt
  have hc := k.col.isLt
  simp only [keyIndex]
  omega

/-- The quotient of a key's index by 3 is its row (R38). -/
theorem keyIndex_div (k : Key) : keyIndex k / 3 = k.row.val := by
  have hc := k.col.isLt
  simp only [keyIndex]
  omega

/-- The remainder of a key's index by 3 is its column (R38). -/
theorem keyIndex_mod (k : Key) : keyIndex k % 3 = k.col.val := by
  have hc := k.col.isLt
  simp only [keyIndex]
  omega

/-- The index of a key names that key (R38). -/
@[simp] theorem keyOfIndex_keyIndex (k : Key) : keyOfIndex (keyIndex k) = some k := by
  rw [keyOfIndex, if_pos (keyIndex_lt k), keyIndex_div, keyIndex_mod, Fin.ofNat_val_eq_self, Fin.ofNat_val_eq_self]

/-- An index from 12 on names no key (R38). -/
theorem keyOfIndex_eq_none {n : Nat} (h : 12 ≤ n) : keyOfIndex n = none :=
  if_neg (Nat.not_lt.mpr h)

/-- Settles O2: the scan's twelve keys and their indices are read off; the round trip and the unnamed indices hold by
division by 3. -/
theorem scanOrderIsTheKeyIndexOrder : Obligations.ScanOrderIsTheKeyIndexOrder :=
  ⟨by decide, by decide, fun k => ⟨rfl, keyOfIndex_keyIndex k⟩, fun _ => keyOfIndex_eq_none⟩

end Sys2Proof.Machine
end

section
/-! The strobe sequence (R66, R67): a TICK moves the low line one row on, an EDGE and a NOP leave it, and a run of
operations given as their words carries each one out. -/

namespace Sys2Proof.Machine

@[simp] theorem advanceFrom_cfg (r : Row) (s : State) : (advanceFrom r s).cfg = s.cfg := rfl
@[simp] theorem advanceFrom_rowOut (r : Row) (s : State) : (advanceFrom r s).rowOut = rowPattern (nextRow r) := rfl
@[simp] theorem advanceFrom_stimulus (r : Row) (s : State) : (advanceFrom r s).stimulus = s.stimulus := rfl

/-- The table of R66: from each pattern to the next. -/
theorem rowPattern_nextRow_table (r : Row) :
    (rowPattern r = 0b1110#4 → rowPattern (nextRow r) = 0b1101#4)
      ∧ (rowPattern r = 0b1101#4 → rowPattern (nextRow r) = 0b1011#4)
      ∧ (rowPattern r = 0b1011#4 → rowPattern (nextRow r) = 0b0111#4)
      ∧ (rowPattern r = 0b0111#4 → rowPattern (nextRow r) = 0b1110#4) := by
  revert r
  decide

/-- Settles O20: a TICK on row `r` leaves the pattern of the next row, since the release phase writes no row. -/
theorem tickAdvancesTheRow : Obligations.TickAdvancesTheRow := by
  rintro s cols ⟨r, hr⟩
  have hnext := advanceFrom_rowOut r (releasePhase r cols s)
  refine ⟨_, exec_tick_of_pattern hr cols, ⟨nextRow r, hnext⟩, ?_⟩
  rw [hr, hnext]
  exact rowPattern_nextRow_table r

/-- The row `n` TICKs after row `r` (R67). -/
def rowAfterTicks (r : Row) (n : Nat) : Row := Fin.ofNat 4 (r.val + n)

@[simp] theorem rowAfterTicks_zero (r : Row) : rowAfterTicks r 0 = r := Fin.ofNat_val_eq_self r

theorem rowAfterTicks_one (r : Row) : rowAfterTicks r 1 = nextRow r := rfl

/-- The moves of two batches of TICKs add up, modulo 4 (R67). -/
theorem rowAfterTicks_add (r : Row) (m n : Nat) :
    rowAfterTicks (rowAfterTicks r m) n = rowAfterTicks r (m + n) := by
  apply Fin.ext
  simp [rowAfterTicks, Fin.ofNat, Nat.add_assoc]

/-- An operation other than RESET answers a next state, moves the low line on if it is a TICK, and leaves the
configuration and the input. -/
theorem exec_of_pattern_of_ne_reset {i : Instr} {s : State} {r : Row} (hr : s.rowOut = rowPattern r)
    (hi : i ≠ .reset) :
    ∃ t, exec i s = .next t ∧ t.cfg = s.cfg ∧ t.stimulus = s.stimulus
      ∧ t.rowOut = rowPattern (rowAfterTicks r (tickStream [i]).length) := by
  cases i with
  | nop => exact ⟨s, rfl, rfl, rfl, by simp [hr]⟩
  | tick cols => exact ⟨_, exec_tick_of_pattern hr cols, by simp, by simp, by simp [rowAfterTicks_one]⟩
  | edge mask => exact ⟨sampleEdges mask s, rfl, by simp, by simp, by simp [hr]⟩
  | reset => exact absurd rfl hi

/-- The word of an operation decodes to it (R56). -/
@[simp] theorem decode_encode (i : Instr) : decode (encode i) = .op i := by
  cases i with
  | nop => decide
  | tick cols => revert cols; decide
  | edge mask => revert mask; decide
  | reset => decide

/-- A step on an operation's word runs that operation, its word taken from the input (R100, R103). -/
theorem step_of_encode {i : Instr} {s : State} {rest : List StimulusWord} (hc : configLegal s.cfg = true)
    (hs : s.stimulus = encode i :: rest) : step s = exec i s.afterWord := by
  simp [step, admitNext, hc, hs]

/-- A run on the words of operations with no RESET among them moves the low line once for each TICK (R67). -/
theorem runSteps_of_encoded {ops : List Instr} {s : State} {r : Row} {rest : List StimulusWord}
    (hc : configLegal s.cfg = true) (hr : s.rowOut = rowPattern r) (hops : .reset ∉ ops)
    (hs : s.stimulus = ops.map encode ++ rest) :
    ∃ t, runSteps ops.length s = .next t ∧ t.stimulus = rest
      ∧ t.rowOut = rowPattern (rowAfterTicks r (tickStream ops).length) := by
  induction ops generalizing s r with
  | nil => exact ⟨s, rfl, hs, by simp [hr]⟩
  | cons i ops ih =>
    obtain ⟨hi, hops⟩ := List.ne_and_not_mem_of_not_mem_cons hops
    obtain ⟨u, hu, hucfg, hustim, hurow⟩ := exec_of_pattern_of_ne_reset (s := s.afterWord) hr hi.symm
    have hstep : step s = .next u := (step_of_encode hc hs).trans hu
    obtain ⟨t, ht, htstim, htrow⟩ := ih (s := u) (by simpa [hucfg] using hc) hurow hops (by simp [hustim, hs])
    refine ⟨t, (runSteps_succ_next hstep).trans ht, htstim, ?_⟩
    rw [htrow, rowAfterTicks_add, ← List.length_append, ← tickStream_append, List.singleton_append]

/-- Settles O21: by induction over the operations, each moving the low line one row on exactly if it is a TICK. -/
theorem ticksGoRoundTheRows : Obligations.TicksGoRoundTheRows := by
  intro ops s r rest hc hr hops hs
  obtain ⟨t, ht, htstim, htrow⟩ := runSteps_of_encoded hc hr hops hs
  exact ⟨t, ht, htstim, curRow_of_pattern htrow⟩

end Sys2Proof.Machine
end

section
/-! The edge event (R71 to R82): the counters it credits, its columns one at a time, and the reports it emits. -/

namespace Sys2Proof.Machine

/-- An EDGE answers the state its edge event leaves (R71). -/
theorem exec_edge_of_sampleEdges {mask : ColBits} {s t : State} (h : sampleEdges mask s = t) :
    exec (.edge mask) s = .next t :=
  congrArg Host.Outcome.next h

/-- A row is active where its line is low (R32). -/
theorem rowActive_iff (s : State) (r : Row) : rowActive s r = true ↔ s.rowOut[r] = false := by
  simp [rowActive]

/-- The detector appends one event, long, which names its key first (R81). -/
theorem longPress_events (k : Key) (s : State) :
    ∃ e, (longPress k s).events = s.events ++ [e] ∧ isLongEvent e = true ∧ firstKey e = k := by
  rcases longPress_cases k s with ⟨p, -, h⟩ | ⟨-, h⟩
  · exact ⟨.chordLong k p, by simp [h], rfl, rfl⟩
  · exact ⟨.singleLong k, by simp [h], rfl, rfl⟩

/-- A qualifying edge only appends events (R96). -/
theorem creditKey_events_prefix (k : Key) (s : State) : s.events <+: (creditKey k s).events := by
  rcases creditKey_cases k s with ⟨-, h⟩ | ⟨-, h⟩
  · obtain ⟨e, he, -⟩ := longPress_events k (s.setCount k (satInc s.cfg (s.count k)))
    exact ⟨[e], by rw [h, he, State.setCount_events]⟩
  · rw [h, State.setCount_events]

/-- An edge event only appends events (R96). -/
theorem sampleEdges_events_prefix (mask : ColBits) (s : State) : s.events <+: (sampleEdges mask s).events :=
  sampleEdges_induction (P := fun t => s.events <+: t.events) mask s List.prefix_rfl
    fun t r c _ _ ht => ht.trans (creditKey_events_prefix ⟨r, c⟩ t)

/-- Settles O27: the frame of an edge event, and its counters as `sampleEdges_count` gives them. -/
theorem edgeIncrementsActiveKeys : Obligations.EdgeIncrementsActiveKeys := by
  intro s mask
  refine ⟨_, exec_edge_of_sampleEdges rfl, sampleEdges_rowOut s mask, sampleEdges_cfg s mask,
    sampleEdges_stimulus s mask, sampleEdges_events_prefix mask s, fun k => ?_⟩
  have credited : colBit mask k.col = true ∧ rowActive s k.row = true
      ↔ s.rowOut[k.row] = false ∧ mask[k.col] = true :=
    and_comm.trans (and_congr_left' (rowActive_iff s k.row))
  exact (sampleEdges_count mask s k).trans (if_congr credited rfl rfl)

/-- An edge event in which no column but `c` can be set processes column `c` if it is set, and no other (R72). -/
theorem sampleEdges_of_one_column {mask : ColBits} {c : Col} {b : Bool}
    (h : ∀ j : Col, colBit mask j = (b && decide (j = c))) (s : State) :
    sampleEdges mask s = if b then creditColumn s c else s := by
  have three : ∀ c : Col, c = 0 ∨ c = 1 ∨ c = 2 := by decide
  rw [sampleEdges_eq]
  rcases three c with rfl | rfl | rfl <;> simp [h]

/-- The mask cut to column `c` has at most that bit. -/
theorem colBit_and_column (mask : ColBits) (c j : Col) :
    colBit (mask &&& 1#3 <<< c.val) j = (colBit mask c && decide (j = c)) := by
  revert mask c j
  decide

/-- Settles O28: each single-column EDGE is one step of the fold over the columns. -/
theorem edgeColumnsInAscendingOrder : Obligations.EdgeColumnsInAscendingOrder := by
  intro s mask
  have column (c : Col) (t : State) :
      exec (.edge (mask &&& 1#3 <<< c.val)) t = .next (if colBit mask c then creditColumn t c else t) :=
    exec_edge_of_sampleEdges (sampleEdges_of_one_column (colBit_and_column mask c) t)
  exact ⟨_, _, _, column 0 s, column 1 _, column 2 _, exec_edge_of_sampleEdges (sampleEdges_eq mask s)⟩

/-- Settles O29: no column of the empty mask is set. -/
theorem emptyEdgeChangesNothing : Obligations.EmptyEdgeChangesNothing := by
  intro s
  have none_set : ∀ j : Col, colBit 0b000#3 j = (false && decide (j = 0)) := by decide
  exact exec_edge_of_sampleEdges (sampleEdges_of_one_column none_set s)

/-- The events a state adds to an earlier one are those appended. -/
theorem newEvents_of_append {s t : State} {es : List Event} (h : t.events = s.events ++ es) : newEvents s t = es := by
  rw [newEvents, h, List.drop_left]

/-- `t` adds to the events of `s` one long report for each of the keys, in their order, naming it first (R79, R81). -/
def AddsLongReportsOf (keys : List Key) (s t : State) : Prop :=
  ∃ es, t.events = s.events ++ es ∧ es.map firstKey = keys ∧ ∀ e ∈ es, isLongEvent e = true

theorem AddsLongReportsOf.refl (s : State) : AddsLongReportsOf [] s s := ⟨[], by simp⟩

theorem AddsLongReportsOf.trans {ks ls : List Key} {s t u : State} (h : AddsLongReportsOf ks s t)
    (h' : AddsLongReportsOf ls t u) : AddsLongReportsOf (ks ++ ls) s u := by
  obtain ⟨es, hes, hkeys, hlong⟩ := h
  obtain ⟨fs, hfs, hkeys', hlong'⟩ := h'
  refine ⟨es ++ fs, by rw [hfs, hes, List.append_assoc], by rw [List.map_append, hkeys, hkeys'], fun e he => ?_⟩
  exact (List.mem_append.mp he).elim (hlong e) (hlong' e)

/-- A qualifying edge reports its key exactly if it takes the counter to the threshold (R79). -/
theorem creditKey_addsLongReports {s : State} (hc : meetsR12 s.cfg = true) (k : Key) :
    AddsLongReportsOf (if s.count k + 1 = s.cfg.longClickThreshold then [k] else []) s (creditKey k s) := by
  simp only [← satInc_eq_threshold_iff hc]
  rcases creditKey_cases k s with ⟨hv, h⟩ | ⟨hv, h⟩
  · obtain ⟨e, he, hlong, hkey⟩ := longPress_events k (s.setCount k (satInc s.cfg (s.count k)))
    exact ⟨[e], by rw [h, he, State.setCount_events], by simp [hv, hkey], by simp [hlong]⟩
  · rw [if_neg hv, h]
    exact ⟨[], by simp⟩

/-- A set column whose key of row `r` is one below the threshold. -/
def crosses (mask : ColBits) (r : Row) (s : State) (c : Col) : Bool :=
  colBit mask c && decide (s.count ⟨r, c⟩ + 1 = s.cfg.longClickThreshold)

/-- Columns of row `r` processed in turn, none twice, report the keys that cross the threshold, in that order (R72,
R79). -/
theorem foldl_creditKey_addsLongReports (mask : ColBits) (r : Row) {l : List Col} (hl : l.Nodup) {s : State}
    (hc : meetsR12 s.cfg = true) :
    AddsLongReportsOf ((l.filter (crosses mask r s)).map fun c => ⟨r, c⟩) s
      (l.foldl (fun s c => if colBit mask c then creditKey ⟨r, c⟩ s else s) s) := by
  induction l generalizing s with
  | nil => exact .refl s
  | cons c l ih =>
    obtain ⟨hcl, hl⟩ := List.nodup_cons.mp hl
    rw [List.foldl_cons]
    by_cases hb : colBit mask c = true
    · have later : l.filter (crosses mask r (creditKey ⟨r, c⟩ s)) = l.filter (crosses mask r s) := by
        refine List.filter_congr fun j hj => ?_
        have hjc : j ≠ c := fun h => hcl (h ▸ hj)
        simp [crosses, hjc]
      have tail := ih hl (s := creditKey ⟨r, c⟩ s) (by simpa using hc)
      rw [later] at tail
      have both := (creditKey_addsLongReports hc ⟨r, c⟩).trans tail
      rw [if_pos hb, List.filter_cons]
      by_cases hx : s.count ⟨r, c⟩ + 1 = s.cfg.longClickThreshold <;> simpa [crosses, hb, hx] using both
    · have hx : crosses mask r s c = false := by simp [crosses, hb]
      rw [if_neg hb, List.filter_cons_of_neg (by simp [hx])]
      exact ih hl hc

/-- Settles O30: the columns of the current row report in turn, and there are three of them. -/
theorem edgeReportsExactlyTheThresholdCrossings : Obligations.EdgeReportsExactlyTheThresholdCrossings := by
  intro s r mask hc hr
  obtain ⟨es, hes, hkeys, hlong⟩ := foldl_creditKey_addsLongReports mask r (l := [0, 1, 2]) (by decide) hc
  rw [← sampleEdges_of_pattern s r mask hr] at hes
  refine ⟨_, exec_edge_of_sampleEdges rfl, ?_⟩
  rw [newEvents_of_append hes]
  refine ⟨hkeys, hlong, ?_⟩
  calc es.length = (([0, 1, 2] : List Col).filter (crosses mask r s)).length := by
        simpa using congrArg List.length hkeys
    _ ≤ 3 := List.length_filter_le _ _

/-- A key that matches where none of a smaller index does is the one a search finds (R16). -/
theorem firstInScan_eq_some {p : Key → Bool} {k : Key} (hk : p k = true)
    (hlt : ∀ j, keyIndex j < keyIndex k → p j = false) : firstInScan p = some k := by
  cases hf : firstInScan p with
  | none => simp [firstInScan_none hf k] at hk
  | some j =>
    obtain ⟨hj, hbelow⟩ := firstInScan_some hf
    rcases Nat.lt_trichotomy (keyIndex j) (keyIndex k) with h | h | h
    · simp [hlt j h] at hj
    · rw [keyIndex_injective h]
    · simp [hbelow k h] at hk

/-- A search in which no key matches finds none. -/
theorem firstInScan_eq_none {p : Key → Bool} (h : ∀ k, p k = false) : firstInScan p = none :=
  List.find?_eq_none.mpr fun k _ => by simp [h k]

/-- The partner scan of a key does not depend on that key's own counter (R80). -/
@[simp] theorem longPartner_setCount_self (k : Key) (s : State) (v : Nat) :
    longPartner k (s.setCount k v) = longPartner k s := by
  refine firstInScan_congr fun j => ?_
  by_cases hj : j = k <;> simp [hj]

theorem isLongNear_iff (c : Config) (v : Nat) :
    isLongNear c v = true ↔ c.longClickThreshold - c.maxDeviation ≤ v := by
  simp [isLongNear, longNear]

/-- The first other key in scan order at `LONG_NEAR` or more is the partner (R80). -/
theorem longPartner_eq_some {k p : Key} {s : State} (hp : p ≠ k) (hnear : isLongNear s.cfg (s.count p) = true)
    (hfirst : ∀ q, keyIndex q < keyIndex p → q ≠ k → ¬ isLongNear s.cfg (s.count q) = true) :
    longPartner k s = some p := by
  refine firstInScan_eq_some (by simp [hp, hnear]) fun q hq => ?_
  by_cases hk : q = k
  · simp [hk]
  · simp [hfirst q hq hk]

/-- With no other key at `LONG_NEAR` or more there is no partner (R80). -/
theorem longPartner_eq_none {k : Key} {s : State} (hfar : ∀ q, q ≠ k → ¬ isLongNear s.cfg (s.count q) = true) :
    longPartner k s = none := by
  refine firstInScan_eq_none fun q => ?_
  by_cases hk : q = k
  · simp [hk]
  · simp [hfar q hk]

/-- The report of a key with a partner (R81). -/
theorem longPress_of_partner {k p : Key} {s : State} (h : longPartner k s = some p) :
    longPress k s = s.emit (.chordLong k p) := by
  rw [longPress, h]

/-- The report of a key with no partner (R81). -/
theorem longPress_of_no_partner {k : Key} {s : State} (h : longPartner k s = none) :
    longPress k s = s.emit (.singleLong k) := by
  rw [longPress, h]

/-- With exactly row `r` low, an edge event of column `c` alone is one qualifying edge of key `(r, c)` (R73, R76). -/
theorem sampleEdges_of_one_key {s : State} {r : Row} {c : Col} {mask : ColBits} (hr : s.rowOut = rowPattern r)
    (hmask : ∀ j : Col, mask[j] = decide (j = c)) : sampleEdges mask s = creditKey ⟨r, c⟩ s := by
  rw [sampleEdges_of_one_column (c := c) (b := true) (by simpa [colBit] using hmask), if_pos rfl,
    creditColumn_of_pattern s r c hr]

/-- A qualifying edge that takes its key to the threshold runs the detector on the new value (R77, R79). -/
theorem creditKey_at_threshold {s : State} {k : Key} (hc : meetsR12 s.cfg = true)
    (hk : s.count k + 1 = s.cfg.longClickThreshold) :
    creditKey k s = longPress k (s.setCount k s.cfg.longClickThreshold) := by
  have hv := (satInc_eq_threshold_iff hc (s.count k)).mpr hk
  rcases creditKey_cases k s with ⟨-, h⟩ | ⟨hne, -⟩
  · rw [h, hv]
  · exact absurd hv hne

/-- Settles O31: the EDGE is one qualifying edge, which runs the detector, and the scan decides which report. -/
theorem edgeOfOneKeyAtTheThreshold : Obligations.EdgeOfOneKeyAtTheThreshold := by
  intro s r c mask hc hr hmask hk k near
  have hedge : sampleEdges mask s = longPress k (s.setCount k s.cfg.longClickThreshold) :=
    (sampleEdges_of_one_key hr hmask).trans (creditKey_at_threshold hc hk)
  have hnear : ∀ q, near q ↔ isLongNear s.cfg (s.count q) = true := fun q => (isLongNear_iff _ _).symm
  refine ⟨_, exec_edge_of_sampleEdges hedge, by simp, by simp, by simp, by simp,
    fun p hpk hp hfirst => ?_, fun hfar => ?_⟩
  · simp only [hnear] at hp hfirst
    rw [longPress_of_partner ((longPartner_setCount_self k s _).trans (longPartner_eq_some hpk hp hfirst))]
    simp
  · simp only [hnear] at hfar
    rw [longPress_of_no_partner ((longPartner_setCount_self k s _).trans (longPartner_eq_none hfar))]
    simp

end Sys2Proof.Machine
end

section
/-! The release-check (R87 to R92): its four cases, and a TICK that releases one key. -/

namespace Sys2Proof.Machine

@[simp] theorem advanceFrom_events (r : Row) (s : State) : (advanceFrom r s).events = s.events := rfl

/-- A count is short strictly between 0 and `SHORT_CLICK_THRESHOLD` (R87). -/
theorem isShortCount_iff (c : Config) (v : Nat) : isShortCount c v = true ↔ 0 < v ∧ v < c.shortClickThreshold := by
  simp [isShortCount]

/-- The first other short key in scan order is the partner (R89). -/
theorem shortPartner_eq_some {k p : Key} {s : State} (hp : p ≠ k) (hshort : isShortCount s.cfg (s.count p) = true)
    (hfirst : ∀ q, keyIndex q < keyIndex p → q ≠ k → ¬ isShortCount s.cfg (s.count q) = true) :
    shortPartner k s = some p := by
  refine firstInScan_eq_some (by simp [hp, hshort]) fun q hq => ?_
  by_cases hk : q = k
  · simp [hk]
  · simp [hfirst q hq hk]

/-- With no other short key there is no partner (R89). -/
theorem shortPartner_eq_none {k : Key} {s : State}
    (hnone : ∀ q, q ≠ k → ¬ isShortCount s.cfg (s.count q) = true) : shortPartner k s = none := by
  refine firstInScan_eq_none fun q => ?_
  by_cases hk : q = k
  · simp [hk]
  · simp [hnone q hk]

/-- A short count is above 0, so its key is not idle (R87). -/
theorem count_ne_zero_of_isShortCount {c : Config} {v : Nat} (h : isShortCount c v = true) : v ≠ 0 :=
  ((isShortCount_iff c v).mp h).1.ne'

/-- The release-check of an idle key does nothing (R88). -/
theorem releaseCheck_of_idle {k : Key} {s : State} (h : s.count k = 0) : releaseCheck k s = s :=
  if_pos h

/-- The release-check of a short key with a partner reports the chord and clears both (R90). -/
theorem releaseCheck_of_partner {k p : Key} {s : State} (hk : isShortCount s.cfg (s.count k) = true)
    (hp : shortPartner k s = some p) :
    releaseCheck k s = ((s.emit (.chordShort k p)).setCount k 0).setCount p 0 := by
  rw [releaseCheck, if_neg (count_ne_zero_of_isShortCount hk), if_pos hk, hp]

/-- The release-check of a short key with no partner reports it alone and clears it (R91). -/
theorem releaseCheck_of_no_partner {k : Key} {s : State} (hk : isShortCount s.cfg (s.count k) = true)
    (hp : shortPartner k s = none) : releaseCheck k s = (s.emit (.singleShort k)).setCount k 0 := by
  rw [releaseCheck, if_neg (count_ne_zero_of_isShortCount hk), if_pos hk, hp]

/-- The release-check of a key that is counting and not short clears it with no report (R92). -/
theorem releaseCheck_of_not_short {k : Key} {s : State} (h0 : s.count k ≠ 0)
    (hk : ¬ isShortCount s.cfg (s.count k) = true) : releaseCheck k s = s.setCount k 0 := by
  rw [releaseCheck, if_neg h0, if_neg hk]

/-- A release phase in which every column but `c` is asserting is the release-check of key `(r, c)` (R86, R93). -/
theorem releasePhase_of_one_key {cols : ColBits} {c : Col} (hcols : ∀ j : Col, cols[j] = decide (j ≠ c)) (r : Row)
    (s : State) : releasePhase r cols s = releaseCheck ⟨r, c⟩ s := by
  have hbit : ∀ j : Col, colBit cols j = decide (j ≠ c) := hcols
  have three : ∀ c : Col, c = 0 ∨ c = 1 ∨ c = 2 := by decide
  rw [releasePhase_eq]
  rcases three c with rfl | rfl | rfl <;> simp [hbit]

/-- A TICK on row `r` that releases the key of column `c` alone is its release-check and the advance (R65, R86). -/
theorem exec_tick_of_one_key {s : State} {r : Row} {c : Col} {cols : ColBits} (hr : s.rowOut = rowPattern r)
    (hcols : ∀ j : Col, cols[j] = decide (j ≠ c)) :
    exec (.tick cols) s = .next (advanceFrom r (releaseCheck ⟨r, c⟩ s)) := by
  rw [exec_tick_of_pattern hr, releasePhase_of_one_key hcols]

/-- Settles O22: the TICK is one release-check and the advance, and the key's count and the scan decide the case. -/
theorem tickOfOneReleasedKey : Obligations.TickOfOneReleasedKey := by
  intro s r c cols hr hcols k short
  have hshort : ∀ j, short j ↔ isShortCount s.cfg (s.count j) = true := fun j => (isShortCount_iff _ _).symm
  refine ⟨_, exec_tick_of_one_key hr hcols, by rw [advanceFrom_rowOut]; rfl, by simp, by simp,
    fun hidle => ?_, fun p hk hpk hp hfirst => ?_, fun hk hnone => ?_, fun hpos hlong => ?_⟩
  · rw [releaseCheck_of_idle hidle]
    simp
  · simp only [hshort] at hk hp hfirst
    rw [releaseCheck_of_partner hk (shortPartner_eq_some hpk hp hfirst)]
    refine ⟨by simp, fun j => ?_⟩
    by_cases hjp : j = p <;> simp [hjp, k]
  · simp only [hshort] at hk hnone
    rw [releaseCheck_of_no_partner hk (shortPartner_eq_none hnone)]
    simp [k]
  · have hk : ¬ isShortCount s.cfg (s.count k) = true := by
      rw [isShortCount_iff]
      exact fun h => absurd h.2 hlong.not_gt
    rw [releaseCheck_of_not_short hpos.ne' hk]
    simp [k]

end Sys2Proof.Machine
end

section
/-! The event sink (R96, R97): an emitted event adds its call at the end of the calls received so far. -/

namespace Sys2Proof.Machine

/-- The sink receives one call for an emitted event, after all the calls before it (R97). -/
@[simp] theorem sinkCalls_emit (s : State) (e : Event) : sinkCalls (s.emit e) = sinkCalls s ++ [sinkCall e] := by
  rw [sinkCalls, State.emit_events, List.map_append, List.map_singleton, ← sinkCalls]

/-- Settles O9: `sinkCalls_emit` for each of the four kinds, where `sinkCall` names the operation and the symbols. -/
theorem sinkReceivesOneCallForEachEvent : Obligations.SinkReceivesOneCallForEachEvent := fun s a b =>
  ⟨sinkCalls_emit s (.singleShort a), sinkCalls_emit s (.chordShort a b), sinkCalls_emit s (.singleLong a),
    sinkCalls_emit s (.chordLong a b)⟩

end Sys2Proof.Machine
end

section
/-! The fields of a stimulus word (R51): a word is its three fields, and a word that decodes is the word of its
operation (R56). -/

namespace Sys2Proof

/-- A stimulus word is its three fields in order (R51). -/
theorem stimulusWord_fields (w : StimulusWord) : stimulusWord (opField w) (rsvField w) (argField w) = w := by
  have hlow : opField w ++ rsvField w = w.extractLsb' 3 5 := BitVec.extractLsb'_append_extractLsb'_eq_extractLsb' rfl
  have hall : w.extractLsb' 3 5 ++ argField w = w.extractLsb' 0 8 :=
    BitVec.extractLsb'_append_extractLsb'_eq_extractLsb' rfl
  rw [stimulusWord, hlow, hall, BitVec.extractLsb'_eq_self]

/-- The field `op` of a word made of three fields (R51). -/
@[simp] theorem opField_stimulusWord (op : BitVec 2) (rsv arg : BitVec 3) : opField (stimulusWord op rsv arg) = op := by
  rw [opField, stimulusWord, BitVec.append_assoc]
  exact BitVec.extractLsb'_append_eq_left

/-- A word that decodes to an operation is the word of that operation (R51 to R57). -/
theorem encode_of_decode {w : StimulusWord} {i : Instr} (h : decode w = .op i) : encode i = w := by
  rw [← stimulusWord_fields w]
  unfold decode at h
  split at h
  · cases h
  next hrsv =>
    have hrsv : rsvField w = 0b000#3 := by simpa using hrsv
    rw [hrsv]
    split at h
    next hop =>
      split at h
      next harg => cases h; rw [encode, hop, eq_of_beq harg]
      · cases h
    next hop => cases h; rw [encode, hop]
    next hop => cases h; rw [encode, hop]
    next hop =>
      split at h
      next harg => cases h; rw [encode, hop, eq_of_beq harg]
      · cases h

/-- RESET is the one operation whose word has `op = 11` (R52, R105). -/
theorem eq_reset_of_opField_encode {i : Instr} (h : opField (encode i) = 0b11#2) : i = .reset := by
  cases i with
  | reset => rfl
  | nop => simp [encode] at h
  | tick cols => simp [encode] at h
  | edge mask => simp [encode] at h

end Sys2Proof
end

section
/-! NOP and RESET (R105, R106). -/

namespace Sys2Proof.Machine

/-- NOP answers the state it is given (R106). -/
@[simp] theorem exec_nop (s : State) : exec .nop s = .next s := rfl

/-- RESET answers the reset of the block (R105). -/
@[simp] theorem exec_reset (s : State) : exec .reset s = .next (resetBlock s) := rfl

/-- Settles O16: the word is read off, and `exec_nop` is the rest. -/
theorem nopChangesNothing : Obligations.NopChangesNothing :=
  ⟨by decide, exec_nop⟩

/-- Settles O17: a legal word is its operation's word, RESET's alone has `op = 11`, and the state answered is
`resetBlock s`, field by field. -/
theorem resetClearsTheBlock : Obligations.ResetClearsTheBlock := by
  refine ⟨by decide, fun w hop ⟨i, hi⟩ => ?_, fun s => ⟨resetBlock s, exec_reset s, resetBlock_count s, ?_,
    resetBlock_events s, resetBlock_cfg s, resetBlock_stimulus s⟩⟩
  · obtain rfl := encode_of_decode hi
    obtain rfl := eq_reset_of_opField_encode hop
    decide
  · rw [resetBlock_rowOut, rowPattern]

end Sys2Proof.Machine
end

section
/-! The decoder and the encoder agree (R51 to R57), and which words are legal (R55). -/

namespace Sys2Proof

/-- A word decodes to an operation exactly if it is the word of that operation (R51 to R57). -/
theorem decode_eq_op_iff (w : StimulusWord) (i : Instr) : decode w = .op i ↔ w = encode i :=
  ⟨fun h => (encode_of_decode h).symm, fun h => h ▸ Machine.decode_encode i⟩

/-- Settles O6: `encode_of_decode` one way, `decode_encode` the other; no operand is ill formed. -/
theorem decodeAndEncodeAgree : Obligations.DecodeAndEncodeAgree :=
  fun i w _ => decode_eq_op_iff w i

/-- Settles O4: the decoder run on each word. -/
theorem decodeOfSpecWords : Obligations.DecodeOfSpecWords := by
  refine ⟨?_, ?_, ?_, ?_, ?_, ?_, ?_, ?_⟩ <;> decide

/-- The word of a TICK, as a number (R53). -/
theorem toNat_encode_tick (cols : ColBits) : (encode (.tick cols)).toNat = 0x40 + cols.toNat := by
  revert cols
  decide

/-- The word of an EDGE, as a number (R54). -/
theorem toNat_encode_edge (mask : ColBits) : (encode (.edge mask)).toNat = 0x80 + mask.toNat := by
  revert mask
  decide

/-- The words of TICK are `0x40` to `0x47` (R53). -/
theorem exists_eq_encode_tick_iff (w : StimulusWord) : (∃ cols, w = encode (.tick cols)) ↔ 0x40#8 ≤ w ∧ w ≤ 0x47#8 := by
  constructor
  · rintro ⟨cols, rfl⟩
    rw [BitVec.le_def, BitVec.le_def, toNat_encode_tick]
    bv_omega
  · rintro ⟨hlo, hhi⟩
    refine ⟨w.setWidth 3, BitVec.eq_of_toNat_eq ?_⟩
    rw [toNat_encode_tick]
    bv_omega

/-- The words of EDGE are `0x80` to `0x87` (R54). -/
theorem exists_eq_encode_edge_iff (w : StimulusWord) : (∃ mask, w = encode (.edge mask)) ↔ 0x80#8 ≤ w ∧ w ≤ 0x87#8 := by
  constructor
  · rintro ⟨mask, rfl⟩
    rw [BitVec.le_def, BitVec.le_def, toNat_encode_edge]
    bv_omega
  · rintro ⟨hlo, hhi⟩
    refine ⟨w.setWidth 3, BitVec.eq_of_toNat_eq ?_⟩
    rw [toNat_encode_edge]
    bv_omega

/-- The word of every operation is legal (R55). -/
theorem legal_encode (i : Instr) : StimulusWord.legal (encode i) = true := by
  cases i with
  | nop => exact Laws.EncodesLegally.nop.2.1
  | tick cols => exact (Laws.EncodesLegally.tick cols).2.1
  | edge mask => exact (Laws.EncodesLegally.edge mask).2.1
  | reset => exact Laws.EncodesLegally.reset.2.1

/-- Legality, read off the fields of a word (R51, R55). -/
theorem legal_stimulusWord (op : BitVec 2) (rsv arg : BitVec 3) :
    StimulusWord.legal (stimulusWord op rsv arg) = (rsv == 0#3 && ((op != 0b00#2 && op != 0b11#2) || arg == 0#3)) := by
  revert op rsv arg
  decide

/-- A legal word is the word of the operation its fields name (R52, R55). -/
theorem exists_eq_encode_of_legal {w : StimulusWord} (h : StimulusWord.legal w = true) : ∃ i, w = encode i := by
  have four : ∀ op : BitVec 2, op = 0b00#2 ∨ op = 0b01#2 ∨ op = 0b10#2 ∨ op = 0b11#2 := by decide
  rw [← stimulusWord_fields w] at h ⊢
  rw [legal_stimulusWord] at h
  rcases four (opField w) with hop | hop | hop | hop
  · exact ⟨.nop, by simp_all [encode]⟩
  · exact ⟨.tick (argField w), by simp_all [encode]⟩
  · exact ⟨.edge (argField w), by simp_all [encode]⟩
  · exact ⟨.reset, by simp_all [encode]⟩

/-- The decoder accepts exactly the legal words (R55, R56). -/
theorem exists_decode_iff_legal (w : StimulusWord) : (∃ i, decode w = .op i) ↔ StimulusWord.legal w = true := by
  simp only [decode_eq_op_iff]
  exact ⟨fun ⟨i, hi⟩ => hi ▸ legal_encode i, exists_eq_encode_of_legal⟩

/-- Settles O5: the decoded words are the words of the four operations, family by family. -/
theorem legalWordsAreExactlyTheListedOnes : Obligations.LegalWordsAreExactlyTheListedOnes := by
  intro w
  refine ⟨?_, exists_decode_iff_legal w⟩
  rw [← exists_eq_encode_tick_iff, ← exists_eq_encode_edge_iff]
  simp only [decode_eq_op_iff]
  constructor
  · rintro ⟨i, rfl⟩
    cases i with
    | nop => exact .inl (by decide)
    | tick cols => exact .inr (.inl ⟨cols, rfl⟩)
    | edge mask => exact .inr (.inr (.inl ⟨mask, rfl⟩))
    | reset => exact .inr (.inr (.inr (by decide)))
  · rintro (rfl | ⟨cols, rfl⟩ | ⟨mask, rfl⟩ | rfl)
    · exact ⟨.nop, by decide⟩
    · exact ⟨.tick cols, rfl⟩
    · exact ⟨.edge mask, rfl⟩
    · exact ⟨.reset, by decide⟩

end Sys2Proof
end

section
/-! The event word (R58 to R60): its three fields, and the events it stands for. -/

namespace Sys2Proof.Machine

variable (kind : BitVec 2) (k1 k2 : BitVec 4)

/-- The field `kind` of an event word (R58). -/
@[simp] theorem extractLsb'_kind_eventFields : (eventFields kind k1 k2).extractLsb' 8 2 = kind := by
  rw [eventFields, BitVec.append_assoc]
  exact BitVec.extractLsb'_append_eq_left

/-- The field `k1` of an event word (R58). -/
@[simp] theorem extractLsb'_k1_eventFields : (eventFields kind k1 k2).extractLsb' 4 4 = k1 :=
  (BitVec.extractLsb'_append_eq_of_le (by decide)).trans BitVec.extractLsb'_append_eq_right

/-- The field `k2` of an event word (R58). -/
@[simp] theorem extractLsb'_k2_eventFields : (eventFields kind k1 k2).extractLsb' 0 4 = k2 :=
  BitVec.extractLsb'_append_eq_right

/-- An event word is its three fields in order (R58). -/
theorem eventFields_fields (w : EventWord) :
    eventFields (w.extractLsb' 8 2) (w.extractLsb' 4 4) (w.extractLsb' 0 4) = w := by
  have hhigh : w.extractLsb' 8 2 ++ w.extractLsb' 4 4 = w.extractLsb' 4 6 :=
    BitVec.extractLsb'_append_extractLsb'_eq_extractLsb' rfl
  have hall : w.extractLsb' 4 6 ++ w.extractLsb' 0 4 = w.extractLsb' 0 10 :=
    BitVec.extractLsb'_append_extractLsb'_eq_extractLsb' rfl
  rw [eventFields, hhigh, hall, BitVec.extractLsb'_eq_self]

/-- A key's field holds its index (R58). -/
@[simp] theorem toNat_keyField (k : Key) : (keyField k).toNat = keyIndex k := by
  have := keyIndex_lt k
  rw [keyField, BitVec.toNat_ofNat]
  omega

/-- The index that names a key is that key's index (R38). -/
theorem keyIndex_of_keyOfIndex {n : Nat} {k : Key} (h : keyOfIndex n = some k) : keyIndex k = n := by
  unfold keyOfIndex at h
  split at h
  next hn =>
    obtain rfl := Option.some.inj h
    simp only [keyIndex, Fin.ofNat]
    omega
  · cases h

/-- The field that names a key is that key's field (R58). -/
theorem keyField_of_keyOfIndex {f : BitVec 4} {k : Key} (h : keyOfIndex f.toNat = some k) : keyField k = f := by
  rw [keyField, keyIndex_of_keyOfIndex h, BitVec.ofNat_toNat, BitVec.setWidth_eq]

/-- A single event is read from fields that name its key and have `k2 = 0xF` (R60). -/
theorem singleOfFields_eq_some_iff {mk : Key → Event} {k1 : Option Key} {k2 : BitVec 4} {e : Event} :
    singleOfFields mk k1 k2 = some e ↔ k2 = 0xF#4 ∧ ∃ a, k1 = some a ∧ mk a = e := by
  simp [singleOfFields]

/-- A chord event is read from fields that name two different keys (R60). -/
theorem chordOfFields_eq_some_iff {mk : Key → Key → Event} {k1 k2 : Option Key} {e : Event} :
    chordOfFields mk k1 k2 = some e ↔ ∃ a b, k1 = some a ∧ k2 = some b ∧ a ≠ b ∧ mk a b = e := by
  cases k1 <;> cases k2 <;> simp [chordOfFields]

/-- A well-formed event is read back from its word (R58, R60). -/
theorem eventOfWord_eventWord {e : Event} (h : eventWellFormed e = true) : eventOfWord (eventWord e) = some e := by
  cases e with
  | singleShort a => simp [eventOfWord, eventWord, singleOfFields_eq_some_iff]
  | singleLong a => simp [eventOfWord, eventWord, singleOfFields_eq_some_iff]
  | chordShort a b =>
    have hab : a ≠ b := by simpa [eventWellFormed] using h
    simp [eventOfWord, eventWord, chordOfFields_eq_some_iff, hab]
  | chordLong a b =>
    have hab : a ≠ b := by simpa [eventWellFormed] using h
    simp [eventOfWord, eventWord, chordOfFields_eq_some_iff, hab]

/-- Fields that are read as an event are the fields of its word, and it is well formed (R58, R60). -/
theorem eventWord_of_eventFields {e : Event} (h : eventOfWord (eventFields kind k1 k2) = some e) :
    eventWord e = eventFields kind k1 k2 ∧ eventWellFormed e = true := by
  have four : ∀ b : BitVec 2, b = 0b00#2 ∨ b = 0b01#2 ∨ b = 0b10#2 ∨ b = 0b11#2 := by decide
  rcases four kind with rfl | rfl | rfl | rfl <;>
    simp only [eventOfWord, extractLsb'_kind_eventFields, extractLsb'_k1_eventFields, extractLsb'_k2_eventFields,
      singleOfFields_eq_some_iff, chordOfFields_eq_some_iff] at h
  case inl | inr.inr.inl =>
    obtain ⟨rfl, a, ha, rfl⟩ := h
    simp [eventWord, eventWellFormed, keyField_of_keyOfIndex ha]
  case inr.inl | inr.inr.inr =>
    obtain ⟨a, b, ha, hb, hab, rfl⟩ := h
    simp [eventWord, eventWellFormed, keyField_of_keyOfIndex ha, keyField_of_keyOfIndex hb, hab]

/-- Settles O8: an event's fields name its keys, and fields that name keys are those keys' fields. -/
theorem eventWordsRoundTrip : Obligations.EventWordsRoundTrip := by
  refine ⟨fun e => eventOfWord_eventWord, fun w e h => ?_⟩
  rw [← eventFields_fields w] at h ⊢
  exact eventWord_of_eventFields _ _ _ h

/-- Settles O7: the three field lemmas, for each of the four kinds. -/
theorem eventWordFields : Obligations.EventWordFields := by
  intro a b
  refine ⟨?_, ?_, ?_, ?_⟩ <;> simp [eventWord, keyIndex, -BitVec.extractLsb'_toNat]

end Sys2Proof.Machine
end

section
/-! The current row (R24), and the operations that answer a next state. -/

namespace Sys2Proof.Machine

/-- `cur_row` is `r` exactly where the register holds the pattern of row `r` (R24). -/
theorem curRow_eq_some_iff (s : State) (r : Row) : curRow s = some r ↔ s.rowOut = rowPattern r :=
  ⟨pattern_of_curRow, curRow_of_pattern⟩

/-- In the pattern of row `r` line `r` alone is low (R22, R23). -/
theorem eq_rowPattern_iff (b : RowBits) (r : Row) : b = rowPattern r ↔ b[r] = false ∧ ∀ j : Row, j ≠ r → b[j] = true := by
  revert b r
  decide

/-- The patterns of the four rows (R23, R66). -/
theorem exists_eq_rowPattern_iff (b : RowBits) :
    (∃ r, b = rowPattern r) ↔ b = 0b1110#4 ∨ b = 0b1101#4 ∨ b = 0b1011#4 ∨ b = 0b0111#4 := by
  revert b
  decide

/-- Settles O19: the four patterns are read off, and a pattern is its one low line. -/
theorem currentRowIsTheLowLine : Obligations.CurrentRowIsTheLowLine :=
  ⟨fun s => exists_eq_rowPattern_iff s.rowOut,
    fun s r => (curRow_eq_some_iff s r).trans (eq_rowPattern_iff s.rowOut r)⟩

/-- With one row low every operation answers a next state (R111). -/
theorem exec_answers_of_oneRowLow {s : State} (h : OneRowLow s) (i : Instr) : ∃ t, exec i s = .next t := by
  obtain ⟨r, hr⟩ := h
  cases i with
  | nop => exact ⟨_, exec_nop s⟩
  | tick cols => exact ⟨_, exec_tick_of_pattern hr cols⟩
  | edge mask => exact ⟨_, exec_edge_of_sampleEdges rfl⟩
  | reset => exact ⟨_, exec_reset s⟩

/-- The one refusal of an operation is that of a TICK where there is no current row (log entry 5). -/
theorem exec_refused_cases {i : Instr} {s : State} {f : Refusal} (h : exec i s = .refused f) :
    f = .noCurrentRow ∧ ¬ OneRowLow s := by
  refine ⟨?_, fun hrow => ?_⟩
  · cases i with
    | nop => cases h
    | edge mask => cases h
    | reset => cases h
    | tick cols =>
      rcases execTick_cases cols s with ⟨r, -, he⟩ | ⟨-, he⟩
      · cases he.symm.trans h
      · cases he.symm.trans h; rfl
  · obtain ⟨t, ht⟩ := exec_answers_of_oneRowLow hrow i
    cases ht.symm.trans h

/-- Settles O26: a TICK that is refused has no row low, and where no single row is low it has no current row. -/
theorem tickIsRefusedOnlyWithoutACurrentRow : Obligations.TickIsRefusedOnlyWithoutACurrentRow := by
  refine fun s cols => ⟨fun h => (exec_refused_cases h).2, fun h => ?_⟩
  rcases execTick_cases cols s with ⟨r, hr, -⟩ | ⟨-, he⟩
  · exact absurd ⟨r, hr⟩ h
  · exact he

end Sys2Proof.Machine
end

section
/-! The frame of an operation and of a step: the configuration, the input and the reports already made. -/

namespace Sys2Proof.Machine

variable {i : Instr} {s t : State}

/-- No operation changes the configuration (R18, R28). -/
theorem exec_keeps_cfg (h : exec i s = .next t) : t.cfg = s.cfg := by
  rcases exec_next_cases h with ⟨-, rfl⟩ | ⟨-, rfl⟩ | ⟨mask, -, rfl⟩ | ⟨cols, r, -, -, rfl⟩ <;> simp

/-- No operation touches the input still to come (R102). -/
theorem exec_keeps_stimulus (h : exec i s = .next t) : t.stimulus = s.stimulus := by
  rcases exec_next_cases h with ⟨-, rfl⟩ | ⟨-, rfl⟩ | ⟨mask, -, rfl⟩ | ⟨cols, r, -, -, rfl⟩ <;> simp

/-- Settles O39: a step waits, with no word to take, or runs an operation after taking one. -/
theorem stepKeepsConfigurationAndTakesOneWord : Obligations.StepKeepsConfigurationAndTakesOneWord := by
  intro s t h
  rcases step_next_cases h with ⟨hn, rfl⟩ | ⟨w, rest, i, -, -, he⟩
  · simp [hn]
  · exact ⟨exec_keeps_cfg (s := s.afterWord) he, exec_keeps_stimulus he⟩

/-- A release-check appends at most one event, a short one that names its key first (R87, R95). -/
theorem releaseCheck_events_cases (k : Key) (s : State) :
    (releaseCheck k s).events = s.events
      ∨ ∃ e, (releaseCheck k s).events = s.events ++ [e] ∧ isShortEvent e = true ∧ firstKey e = k := by
  rcases releaseCheck_cases k s with ⟨-, h⟩ | ⟨-, p, -, h⟩ | ⟨-, -, h⟩ | ⟨-, -, h⟩
  · exact .inl (by rw [h])
  · exact .inr ⟨.chordShort k p, by simp [h], rfl, rfl⟩
  · exact .inr ⟨.singleShort k, by simp [h], rfl, rfl⟩
  · exact .inl (by simp [h])

/-- A release phase only appends events (R96). -/
theorem releasePhase_events_prefix (r : Row) (cols : ColBits) (s : State) :
    s.events <+: (releasePhase r cols s).events := by
  refine releasePhase_induction (P := fun t => s.events <+: t.events) r cols s List.prefix_rfl fun t c _ ht => ?_
  rcases releaseCheck_events_cases ⟨r, c⟩ t with h | ⟨e, h, -⟩
  · rwa [h]
  · exact ht.trans ⟨[e], h.symm⟩

/-- An operation only appends events (R96). -/
theorem exec_events_prefix (h : exec i s = .next t) : s.events <+: t.events := by
  rcases exec_next_cases h with ⟨-, rfl⟩ | ⟨-, rfl⟩ | ⟨mask, -, rfl⟩ | ⟨cols, r, -, -, rfl⟩
  · exact List.prefix_rfl
  · exact List.prefix_rfl
  · exact sampleEdges_events_prefix mask s
  · exact releasePhase_events_prefix r cols s

/-- A step only appends events (R96). -/
theorem step_events_prefix (h : step s = .next t) : s.events <+: t.events := by
  rcases step_next_cases h with ⟨-, rfl⟩ | ⟨w, rest, i, -, -, he⟩
  · exact List.prefix_rfl
  · exact exec_events_prefix (s := s.afterWord) he

/-- Settles O41: every operation only appends. -/
theorem reportsAreOnlyAppended : Obligations.ReportsAreOnlyAppended :=
  fun _ _ => step_events_prefix

end Sys2Proof.Machine
end

section
/-! How the arbiter admits (R12, R13, R100, R113): it waits, runs the decoded operation, or refuses by name. -/

namespace Sys2Proof.Machine

/-- With no operation arrived a step changes nothing (R45). -/
theorem step_of_no_stimulus {s : State} (hc : configLegal s.cfg = true) (hn : s.stimulus = []) : step s = .next s := by
  simp [step, admitNext, hc, hn]

/-- Settles O36: with an empty input the arbiter waits. -/
theorem stepWaitsForInput : Obligations.StepWaitsForInput :=
  fun _ => step_of_no_stimulus

/-- Settles O34: the word that decodes to an operation is that operation's word. -/
theorem stepRunsTheDecodedOperation : Obligations.StepRunsTheDecodedOperation := by
  intro s w rest i hc hs hd
  obtain rfl := (decode_eq_op_iff w i).mp hd
  rw [step_of_encode hc hs, State.afterWord, hs, List.tail_cons]

/-- The operation of a table word (R64). -/
theorem decode_of_decodeTableWord {n w : Nat} {i : Instr} (h : decodeTableWord n w = some i) :
    w < 2 ^ 8 ∧ decode (BitVec.ofNat 8 w) = .op i := by
  unfold decodeTableWord at h
  split at h
  next hw =>
    refine ⟨hw.2, ?_⟩
    cases hd : decode (BitVec.ofNat 8 w) with
    | op j => rw [hd] at h; exact congrArg Decoded.op (Option.some.inj h)
    | illegal why => rw [hd] at h; cases h
  · cases h

/-- Settles O35: the placed word is at the front of the input, and taking it gives back the state it was placed in. -/
theorem stepRunsThePlacedWord : Obligations.StepRunsThePlacedWord := by
  intro s w i hc h
  obtain ⟨hw, hd⟩ := decode_of_decodeTableWord h
  have hs : (s.withFetchWord 8 w).stimulus = BitVec.ofNat 8 w :: s.stimulus := by
    rw [State.withFetchWord_stimulus, Nat.mod_eq_of_lt hw]
  exact stepRunsTheDecodedOperation (s.withFetchWord 8 w) _ s.stimulus i hc hs hd

/-- Settles O38: an illegal word does not decode, so the first step refuses, and a run keeps its refusal. -/
theorem illegalWordIsRefusedForTheRestOfTheRun : Obligations.IllegalWordIsRefusedForTheRestOfTheRun := by
  intro s w rest hc hs hw
  cases hd : decode w with
  | op i => simp [(exists_decode_iff_legal w).mp ⟨i, hd⟩] at hw
  | illegal why =>
    exact ⟨why, rfl, fun n => runSteps_succ_refused (by simp [step, admitNext, hc, hs, hd])⟩

/-- A step refuses the configuration as illegal exactly if it breaks R12 (log entry 6). -/
theorem step_eq_illegalConfiguration_iff (s : State) :
    step s = .refused .illegalConfiguration ↔ ¬ meetsR12 s.cfg = true := by
  rcases step_cases s with ⟨hm, hs⟩ | ⟨hm, -, hs⟩ | ⟨hc, -, hs⟩ | ⟨w, rest, i, hc, -, -, hs⟩ | ⟨w, rest, why, hc, -, -, hs⟩
  · simp [hs, hm]
  · simp [hs, hm]
  · simp [hs, meetsR12_of_legal hc]
  · simp only [hs, meetsR12_of_legal hc, not_true_eq_false, iff_false]
    exact fun he => nomatch (exec_refused_cases he).1
  · simp [hs, meetsR12_of_legal hc]

/-- A step refuses the short threshold exactly if R12 holds and the threshold lies above `CNT_MAX` (log entry 10). -/
theorem step_eq_shortThresholdAboveCounterRange_iff (s : State) :
    step s = .refused .shortThresholdAboveCounterRange ↔
      meetsR12 s.cfg = true ∧ ¬ s.cfg.shortClickThreshold ≤ cntMax s.cfg := by
  have legal := configLegal_iff s.cfg
  rcases step_cases s with ⟨hm, hs⟩ | ⟨hm, hl, hs⟩ | ⟨hc, -, hs⟩ | ⟨w, rest, i, hc, -, -, hs⟩ | ⟨w, rest, why, hc, -, -, hs⟩
  · simp [hs, hm]
  · simpa [hs, hm, hl] using legal
  · simp [hs, (legal.mp hc).2]
  · simp only [hs, (legal.mp hc).2, not_true_eq_false, and_false, iff_false]
    exact fun he => nomatch (exec_refused_cases he).1
  · simp [hs, (legal.mp hc).2]

/-- Settles O37: the four constraints are those of `meetsR12`. -/
theorem illegalConfigurationIsRefused : Obligations.IllegalConfigurationIsRefused :=
  fun s => (step_eq_illegalConfiguration_iff s).trans (not_congr (meetsR12_iff s.cfg))

/-- Settles O56: the four constraints are those of `meetsR12`, and the bound is `shortInRange`'s. -/
theorem shortThresholdAboveCounterRangeIsRefused : Obligations.ShortThresholdAboveCounterRangeIsRefused :=
  fun s => (step_eq_shortThresholdAboveCounterRange_iff s).trans (and_congr (meetsR12_iff s.cfg) Nat.not_le)

end Sys2Proof.Machine
end

section
/-! The invariant (R12, R13, R19, R24, R60): it holds at reset, every operation keeps it, and a run on legal words
never stops. -/

namespace Sys2Proof.Machine

/-- The partner of a long chord is another key (R80). -/
theorem longPartner_ne {k p : Key} {s : State} (h : longPartner k s = some p) : p ≠ k := by
  have := (firstInScan_some h).1
  simp_all

/-- The partner of a short chord is another key (R89). -/
theorem shortPartner_ne {k p : Key} {s : State} (h : shortPartner k s = some p) : p ≠ k := by
  have := (firstInScan_some h).1
  simp_all

theorem ReportsWellFormed.emit {s : State} (h : ReportsWellFormed s) {e : Event} (he : eventWellFormed e = true) :
    ReportsWellFormed (s.emit e) := by
  intro f hf
  rcases List.mem_append.mp hf with hf | hf
  · exact h f hf
  · rw [List.mem_singleton.mp hf, he]

/-- The report of a qualifying edge names two different keys, if two (R60, R80). -/
theorem ReportsWellFormed.creditKey {s : State} (h : ReportsWellFormed s) (k : Key) :
    ReportsWellFormed (creditKey k s) := by
  rcases creditKey_cases k s with ⟨-, hk⟩ | ⟨-, hk⟩ <;> rw [hk]
  · rcases longPress_cases k (s.setCount k (satInc s.cfg (s.count k))) with ⟨p, hp, hl⟩ | ⟨-, hl⟩ <;> rw [hl]
    · exact ReportsWellFormed.emit h (by simp [eventWellFormed, (longPartner_ne hp).symm])
    · exact ReportsWellFormed.emit h rfl
  · exact h

/-- The report of a release-check names two different keys, if two (R60, R89). -/
theorem ReportsWellFormed.releaseCheck {s : State} (h : ReportsWellFormed s) (k : Key) :
    ReportsWellFormed (releaseCheck k s) := by
  rcases releaseCheck_cases k s with ⟨-, hk⟩ | ⟨-, p, hp, hk⟩ | ⟨-, -, hk⟩ | ⟨-, -, hk⟩ <;> rw [hk]
  · exact h
  · exact ReportsWellFormed.emit h (by simp [eventWellFormed, (shortPartner_ne hp).symm])
  · exact ReportsWellFormed.emit h rfl
  · exact h

/-- The increment stays in the range of a counter (R19, R78). -/
theorem satInc_le_cntMax {c : Config} {v : Nat} (h : v ≤ cntMax c) : satInc c v ≤ cntMax c := by
  unfold satInc
  split <;> omega

variable {i : Instr} {s t : State}

/-- Every operation leaves one row low (R24). -/
theorem exec_keeps_oneRowLow (hs : OneRowLow s) (h : exec i s = .next t) : OneRowLow t := by
  obtain ⟨r, hr⟩ := hs
  rcases exec_next_cases h with ⟨-, rfl⟩ | ⟨-, rfl⟩ | ⟨mask, -, rfl⟩ | ⟨cols, r, -, -, rfl⟩
  · exact ⟨r, hr⟩
  · exact ⟨s.cfg.resetRow, rfl⟩
  · exact ⟨r, (sampleEdges_rowOut s mask).trans hr⟩
  · exact ⟨nextRow r, rfl⟩

/-- Every operation keeps the counters in their range (R19). -/
theorem exec_keeps_countersInRange (hs : CountersInRange s) (h : exec i s = .next t) : CountersInRange t := by
  intro k
  rw [exec_keeps_cfg h]
  rcases exec_next_cases h with ⟨-, rfl⟩ | ⟨-, rfl⟩ | ⟨mask, -, rfl⟩ | ⟨cols, r, -, -, rfl⟩
  · exact hs k
  · simp
  · rw [sampleEdges_count]
    split
    · exact satInc_le_cntMax (hs k)
    · exact hs k
  · rcases releasePhase_count_cases r cols s k with hk | hk <;> simp [hk, hs k]

/-- Every report of an operation is as R60 allows. -/
theorem exec_keeps_reportsWellFormed (hs : ReportsWellFormed s) (h : exec i s = .next t) : ReportsWellFormed t := by
  rcases exec_next_cases h with ⟨-, rfl⟩ | ⟨-, rfl⟩ | ⟨mask, -, rfl⟩ | ⟨cols, r, -, -, rfl⟩
  · exact hs
  · exact hs
  · exact sampleEdges_induction mask s hs fun t r c _ _ ht => ht.creditKey ⟨r, c⟩
  · exact releasePhase_induction (P := ReportsWellFormed) r cols s hs fun t c _ ht => ht.releaseCheck ⟨r, c⟩

/-- Every operation keeps the invariant. -/
theorem Safe.exec (hs : Safe s) (h : exec i s = .next t) : Safe t where
  config := exec_keeps_cfg h ▸ hs.config
  row := exec_keeps_oneRowLow hs.row h
  counters := exec_keeps_countersInRange hs.counters h
  reports := exec_keeps_reportsWellFormed hs.reports h

/-- Taking a word from the input leaves the block as it is (R102). -/
theorem Safe.afterWord (hs : Safe s) : Safe s.afterWord :=
  ⟨hs.config, hs.row, hs.counters, hs.reports⟩

/-- Settles O45: a step waits or runs one operation, and each operation keeps the four parts. -/
theorem stepKeepsSafe : Obligations.StepKeepsSafe := by
  intro s t hs h
  rcases step_next_cases h with ⟨-, rfl⟩ | ⟨w, rest, i, -, -, he⟩
  · exact hs
  · exact hs.afterWord.exec he

/-- From a safe state with legal input a step answers a next state (R111). -/
theorem step_answers_of_safe (hs : Safe s) (hw : ∀ w ∈ s.stimulus, StimulusWord.legal w = true) :
    ∃ t, step s = .next t := by
  cases hn : s.stimulus with
  | nil => exact ⟨s, step_of_no_stimulus hs.config hn⟩
  | cons w rest =>
    obtain ⟨i, rfl⟩ := exists_eq_encode_of_legal (hw w (by simp [hn]))
    rw [step_of_encode hs.config hn]
    exact exec_answers_of_oneRowLow hs.afterWord.row i

/-- Settles O46: by induction on the number of steps, each answering and keeping the invariant and legal input. -/
theorem runsOnLegalWordsNeverStop : Obligations.RunsOnLegalWordsNeverStop := by
  intro n
  induction n with
  | zero => exact fun s hs _ => ⟨s, runSteps_zero s, hs⟩
  | succ n ih =>
    intro s hs hw
    obtain ⟨u, hu⟩ := step_answers_of_safe hs hw
    obtain ⟨-, htail⟩ := stepKeepsConfigurationAndTakesOneWord s u hu
    rw [runSteps_succ_next hu]
    exact ih u (stepKeepsSafe s u hs hu) fun w hmem => hw w (List.mem_of_mem_tail (htail ▸ hmem))

/-- The reset state of a legal configuration satisfies the invariant (R20, R23, R124). -/
theorem safe_resetWith {c : Config} (h : configLegal c = true) : Safe (State.resetWith c) where
  config := h
  row := ⟨c.resetRow, rfl⟩
  counters k := by simp
  reports e he := nomatch he

/-- Settles O14: `safe_resetWith`, and the default configuration is legal. -/
theorem resetIsSafe : Obligations.ResetIsSafe :=
  ⟨fun _ => safe_resetWith, safe_resetWith (by decide)⟩

end Sys2Proof.Machine
end

section
/-! The parameters (R7 to R10), and what is derived from the reset state (R124). -/

namespace Sys2Proof.Machine

/-- Settles O13: the reset register is at the pattern of `RESET_ROW`, and a counter at 0 is idle. -/
theorem currentRowAndPhasesAfterReset : Obligations.CurrentRowAndPhasesAfterReset :=
  ⟨fun c => ⟨curRow_of_pattern rfl, fun k => by simp [phase]⟩, rfl, curRow_of_pattern rfl⟩

/-- Settles O1: the defaults and the two formulas are read off. -/
theorem parametersAndDerivedConstants : Obligations.ParametersAndDerivedConstants :=
  ⟨rfl, rfl, rfl, rfl, rfl, fun _ => rfl, rfl, fun _ => rfl⟩

end Sys2Proof.Machine
end

section
/-! The release phase of a TICK (R86 to R95): the keys it releases, their reports, and its columns one at a time. -/

namespace Sys2Proof.Machine

/-- From `s` to `t` the keys are released in turn (R87): each is cleared and reports at most once, in that order, a
short event that names it first, and no other counter is written but a partner's, which is cleared (R94). -/
structure ReleasesKeys (keys : List Key) (s t : State) (es : List Event) : Prop where
  events : t.events = s.events ++ es
  firstKeys : (es.map firstKey).Sublist keys
  short : ∀ e ∈ es, isShortEvent e = true
  cleared : ∀ j, (j ∈ keys ∨ ∃ k, Event.chordShort k j ∈ es) → t.count j = 0
  kept : ∀ j, j ∉ keys → (∀ k, Event.chordShort k j ∉ es) → t.count j = s.count j

theorem ReleasesKeys.refl (s : State) : ReleasesKeys [] s s [] where
  events := (List.append_nil _).symm
  firstKeys := .slnil
  short := by simp
  cleared := by simp
  kept _ _ _ := rfl

/-- A counter that is 0 stays 0 while keys are released. -/
theorem ReleasesKeys.count_eq_zero {keys : List Key} {s t : State} {es : List Event} (h : ReleasesKeys keys s t es)
    {j : Key} (hj : s.count j = 0) : t.count j = 0 := by
  by_cases hc : j ∈ keys ∨ ∃ k, Event.chordShort k j ∈ es
  · exact h.cleared j hc
  · obtain ⟨hkeys, hpartner⟩ := not_or.mp hc
    rw [h.kept j hkeys (not_exists.mp hpartner), hj]

theorem ReleasesKeys.trans {ks ls : List Key} {s t u : State} {es fs : List Event} (h : ReleasesKeys ks s t es)
    (h' : ReleasesKeys ls t u fs) : ReleasesKeys (ks ++ ls) s u (es ++ fs) where
  events := by rw [h'.events, h.events, List.append_assoc]
  firstKeys := by rw [List.map_append]; exact h.firstKeys.append h'.firstKeys
  short e he := (List.mem_append.mp he).elim (h.short e) (h'.short e)
  cleared j hj := by
    have hj : (j ∈ ks ∨ ∃ k, Event.chordShort k j ∈ es) ∨ (j ∈ ls ∨ ∃ k, Event.chordShort k j ∈ fs) := by
      simpa [exists_or, or_or_or_comm] using hj
    rcases hj with hj | hj
    · exact h'.count_eq_zero (h.cleared j hj)
    · exact h'.cleared j hj
  kept j hkeys hpartner := by
    simp only [List.mem_append, not_or] at hkeys hpartner
    rw [h'.kept j hkeys.2 fun k => (hpartner k).2, h.kept j hkeys.1 fun k => (hpartner k).1]

/-- The release-check of a key, in each of its four cases (R87 to R92, R94). -/
theorem releaseCheck_releasesKeys (k : Key) (s : State) : ∃ es, ReleasesKeys [k] s (releaseCheck k s) es := by
  rcases releaseCheck_cases k s with ⟨h0, h⟩ | ⟨-, p, -, h⟩ | ⟨-, -, h⟩ | ⟨-, -, h⟩ <;> rw [h]
  · exact ⟨[], by simp, by simp, by simp, by simp [h0], by simp⟩
  · refine ⟨[.chordShort k p], by simp, by simp [firstKey], by simp [isShortEvent], fun j hj => ?_, fun j hk hp => ?_⟩
    · rcases hj with hj | ⟨a, hj⟩ <;> simp_all
    · have hjp : j ≠ p := fun hjp => hp k (by simp [hjp])
      simp_all
  · exact ⟨[.singleShort k], by simp, by simp [firstKey], by simp [isShortEvent], by simp, by simp_all⟩
  · exact ⟨[], by simp, by simp, by simp, by simp, by simp_all⟩

/-- The keys of row `r` in those of the columns that are not asserting, in the order of the columns (R86, R93). -/
def releasedKeys (r : Row) (cols : ColBits) (l : List Col) : List Key :=
  (l.filter fun c => !colBit cols c).map fun c => ⟨r, c⟩

theorem mem_releasedKeys {r : Row} {cols : ColBits} {k : Key} :
    k ∈ releasedKeys r cols allCols ↔ k.row = r ∧ cols[k.col] = false := by
  have hmem : ∀ c : Col, c ∈ allCols := by decide
  obtain ⟨kr, kc⟩ := k
  simp only [releasedKeys, List.mem_map, List.mem_filter, hmem, true_and, Key.mk.injEq, colBit, Bool.not_eq_true']
  exact ⟨fun ⟨c, hc, hr, hcol⟩ => ⟨hr.symm, hcol ▸ hc⟩, fun ⟨hr, hc⟩ => ⟨kc, hc, hr.symm, rfl⟩⟩

/-- Columns checked in turn release their keys in turn (R86). -/
theorem foldl_releaseCheck_releasesKeys (r : Row) (cols : ColBits) (l : List Col) (s : State) :
    ∃ es, ReleasesKeys (releasedKeys r cols l) s
      (l.foldl (fun s c => if colBit cols c then s else releaseCheck ⟨r, c⟩ s) s) es := by
  induction l generalizing s with
  | nil => exact ⟨[], .refl s⟩
  | cons c l ih =>
    rw [List.foldl_cons]
    by_cases hb : colBit cols c = true
    · simpa [releasedKeys, hb] using ih s
    · obtain ⟨es, hes⟩ := releaseCheck_releasesKeys ⟨r, c⟩ s
      obtain ⟨fs, hfs⟩ := ih (releaseCheck ⟨r, c⟩ s)
      exact ⟨es ++ fs, by simpa [releasedKeys, hb] using hes.trans hfs⟩

/-- A TICK on row `r` releases the keys of that row whose column is not asserting (R65, R86). -/
theorem releasesKeys_of_exec_tick {s t : State} {r : Row} {cols : ColBits} (hr : s.rowOut = rowPattern r)
    (h : exec (.tick cols) s = .next t) : ReleasesKeys (releasedKeys r cols allCols) s t (newEvents s t) := by
  rw [exec_tick_of_pattern hr] at h
  cases h
  obtain ⟨es, hes⟩ := foldl_releaseCheck_releasesKeys r cols allCols s
  have hadvance : ReleasesKeys (releasedKeys r cols allCols) s (advanceFrom r (releasePhase r cols s)) es :=
    ⟨hes.events, hes.firstKeys, hes.short, hes.cleared, hes.kept⟩
  rwa [newEvents_of_append hadvance.events]

/-- Settles O24: the keys the TICK releases and the partners they name are cleared, and no other counter changes. -/
theorem tickCounterEffectAndFrame : Obligations.TickCounterEffectAndFrame := by
  intro s r cols hr
  obtain ⟨t, ht⟩ := exec_answers_of_oneRowLow ⟨r, hr⟩ (.tick cols)
  have released := releasesKeys_of_exec_tick hr ht
  refine ⟨t, ht, exec_keeps_cfg ht, exec_keeps_stimulus ht, exec_events_prefix ht,
    fun k hrow hcol => released.cleared k (.inl (mem_releasedKeys.mpr ⟨hrow, hcol⟩)),
    fun k k1 hk => released.cleared k (.inr ⟨k1, hk⟩),
    fun k hk hpartner => released.kept k (fun hmem => hk (mem_releasedKeys.mp hmem)) hpartner⟩

/-- The released keys stand in ascending column order (R86). -/
theorem releasedKeys_pairwise (r : Row) (cols : ColBits) :
    (releasedKeys r cols allCols).Pairwise fun j k => j.col < k.col := by
  have hcols : allCols.Pairwise (· < ·) := by decide
  exact List.pairwise_map.mpr (hcols.filter _)

/-- Settles O25: the first keys of the reports are some of the released keys, in their order. -/
theorem tickReports : Obligations.TickReports := by
  intro s t r cols hr ht
  have released := releasesKeys_of_exec_tick hr ht
  refine ⟨?_, fun e he => ⟨released.short e he, ?_⟩, ?_⟩
  · calc (newEvents s t).length = ((newEvents s t).map firstKey).length := (List.length_map _).symm
      _ ≤ (releasedKeys r cols allCols).length := released.firstKeys.length_le
      _ ≤ allCols.length := by rw [releasedKeys, List.length_map]; exact List.length_filter_le _ _
  · exact mem_releasedKeys.mp (released.firstKeys.subset (List.mem_map_of_mem he))
  · have ordered := (releasedKeys_pairwise r cols).sublist released.firstKeys
    rwa [List.pairwise_map] at ordered

/-- The sample with every column but `c` made asserting leaves column `c` as it is. -/
theorem colBit_or_other_columns (cols : ColBits) (c j : Col) :
    colBit (cols ||| ~~~(1#3 <<< c.val)) j = (colBit cols c || decide (j ≠ c)) := by
  revert cols c j
  decide

/-- A release phase in which no column but `c` can be released checks column `c` if it is not asserting, and no other
(R86, R93). -/
theorem releasePhase_of_one_column (r : Row) (cols : ColBits) (c : Col) (s : State) :
    releasePhase r (cols ||| ~~~(1#3 <<< c.val)) s = if colBit cols c then s else releaseCheck ⟨r, c⟩ s := by
  have three : ∀ c : Col, c = 0 ∨ c = 1 ∨ c = 2 := by decide
  simp only [releasePhase_eq, colBit_or_other_columns]
  rcases three c with rfl | rfl | rfl <;> simp

/-- A release phase is those of its single columns one after another, ascending (R86). -/
theorem releasePhase_column_by_column (r : Row) (cols : ColBits) (s : State) :
    releasePhase r cols s =
      releasePhase r (cols ||| 0b011#3) (releasePhase r (cols ||| 0b101#3) (releasePhase r (cols ||| 0b110#3) s)) := by
  have column0 (t) : releasePhase r (cols ||| 0b110#3) t = _ := releasePhase_of_one_column r cols 0 t
  have column1 (t) : releasePhase r (cols ||| 0b101#3) t = _ := releasePhase_of_one_column r cols 1 t
  have column2 (t) : releasePhase r (cols ||| 0b011#3) t = _ := releasePhase_of_one_column r cols 2 t
  rw [column2, column1, column0]
  rfl

/-- A TICK on row `r` whose advance is undone, and then another: the second goes on from the release phase of the
first. -/
theorem exec_tick_of_advance_undone {s u : State} {r : Row} (hr : s.rowOut = rowPattern r) (hu : u.rowOut = s.rowOut)
    (cols : ColBits) : exec (.tick cols) { advanceFrom r u with rowOut := s.rowOut } =
      .next (advanceFrom r (releasePhase r cols u)) := by
  rw [← exec_tick_of_pattern (hu.trans hr), ← hu]
  rfl

/-- Settles O23: each TICK is the release phase of its one column and the advance, which is undone before the next. -/
theorem tickChecksColumnsInAscendingOrder : Obligations.TickChecksColumnsInAscendingOrder := by
  rintro s cols ⟨r, hr⟩
  exact ⟨_, _, _, exec_tick_of_pattern hr _, exec_tick_of_advance_undone hr (by simp) _,
    exec_tick_of_advance_undone hr (by simp) _, by rw [exec_tick_of_pattern hr, releasePhase_column_by_column]⟩

end Sys2Proof.Machine
end

section
/-! The long presses of a key (R79 to R85): an operation enters LongFired exactly with the report that names the key
first, and a run in which the counter is not cleared holds at most one. -/

namespace Sys2Proof.Machine

/-- The events between two states of a run are those up to a state between them and those from it on (R96). -/
theorem newEvents_append {s t u : State} (h : s.events <+: t.events) (h' : t.events <+: u.events) :
    newEvents s u = newEvents s t ++ newEvents t u := by
  obtain ⟨es, hes⟩ := h
  obtain ⟨fs, hfs⟩ := h'
  rw [newEvents_of_append hes.symm, newEvents_of_append hfs.symm]
  exact newEvents_of_append (by rw [← hfs, ← hes, List.append_assoc])

/-- How many long-press events between two states name key `k` first. -/
def longPresses (k : Key) (s t : State) : Nat := (newEvents s t).countP (isLongEventOf k)

/-- 1 where the counter of `k` has reached `LONG_CLICK_THRESHOLD`, and 0 elsewhere. -/
def firedLong (k : Key) (s : State) : Nat := if s.cfg.longClickThreshold ≤ s.count k then 1 else 0

theorem firedLong_le_one (k : Key) (s : State) : firedLong k s ≤ 1 := by
  unfold firedLong
  split <;> omega

/-- Where R12 holds, LongFired is `firedLong` (R27). -/
theorem phase_eq_longFired_iff {s : State} (h : meetsR12 s.cfg = true) (k : Key) :
    phase s k = .longFired ↔ firedLong k s = 1 := by
  obtain ⟨-, -, -, hpos⟩ := (meetsR12_iff s.cfg).mp h
  have ite_eq_one (p : Prop) [Decidable p] : (if p then 1 else 0) = 1 ↔ p := by split <;> simp_all
  rw [firedLong, ite_eq_one, phase]
  split
  · simp only [reduceCtorEq, false_iff]; omega
  · split
    · simp only [reduceCtorEq, false_iff]; omega
    · simp only [true_iff]; omega

/-- From `s` to `t` the key enters LongFired once for each long press that names it first, and does not leave it. -/
structure LongPressesMatch (k : Key) (s t : State) : Prop where
  cfg : t.cfg = s.cfg
  events : s.events <+: t.events
  fired : longPresses k s t + firedLong k s = firedLong k t

theorem longPresses_of_events_eq {s t : State} (h : t.events = s.events) (k : Key) : longPresses k s t = 0 := by
  rw [longPresses, newEvents_of_append (es := []) (by rw [h, List.append_nil])]
  rfl

theorem LongPressesMatch.refl (k : Key) (s : State) : LongPressesMatch k s s :=
  ⟨rfl, List.prefix_rfl, by rw [longPresses_of_events_eq rfl, Nat.zero_add]⟩

theorem LongPressesMatch.trans {k : Key} {s t u : State} (h : LongPressesMatch k s t) (h' : LongPressesMatch k t u) :
    LongPressesMatch k s u where
  cfg := h'.cfg.trans h.cfg
  events := h.events.trans h'.events
  fired := by
    have hadd : longPresses k s u = longPresses k s t + longPresses k t u := by
      rw [longPresses, newEvents_append h.events h'.events, List.countP_append]; rfl
    have := h.fired
    have := h'.fired
    omega

/-- The increment that reaches the threshold enters LongFired, and no other does (R27, R78, R79). -/
theorem threshold_le_satInc_iff {c : Config} (h : meetsR12 c = true) {v : Nat}
    (hv : satInc c v ≠ c.longClickThreshold) : c.longClickThreshold ≤ satInc c v ↔ c.longClickThreshold ≤ v := by
  obtain ⟨hmax, -⟩ := (meetsR12_iff c).mp h
  unfold satInc at hv ⊢
  split at hv <;> split <;> omega

/-- A qualifying edge of key `j`: its own long press is the one that enters LongFired, and no other key's phase or
report changes (R79, R81). -/
theorem creditKey_longPressesMatch {s : State} (h : meetsR12 s.cfg = true) (k j : Key) :
    LongPressesMatch k s (creditKey j s) := by
  refine ⟨creditKey_cfg j s, creditKey_events_prefix j s, ?_⟩
  rcases creditKey_cases j s with ⟨hv, hj⟩ | ⟨hv, hj⟩
  · obtain ⟨e, he, hlong, hkey⟩ := longPress_events j (s.setCount j (satInc s.cfg (s.count j)))
    have hbelow := (satInc_eq_threshold_iff h (s.count j)).mp hv
    have hnew : newEvents s (creditKey j s) = [e] := newEvents_of_append (by rw [hj, he, State.setCount_events])
    by_cases hk : k = j
    · subst hk
      have hone : longPresses k s (creditKey k s) = 1 := by simp [longPresses, hnew, isLongEventOf, hlong, hkey]
      have hbefore : firedLong k s = 0 := if_neg (by omega)
      have hafter : firedLong k (creditKey k s) = 1 := if_pos (by simp [hv])
      omega
    · simp [longPresses, hnew, isLongEventOf, hkey, firedLong, hk, Ne.symm hk]
  · have hnone : longPresses k s (creditKey j s) = 0 := longPresses_of_events_eq (by rw [hj, State.setCount_events]) k
    have hsame : firedLong k (creditKey j s) = firedLong k s := by
      by_cases hk : k = j
      · subst hk; simp [firedLong, threshold_le_satInc_iff h hv]
      · simp [firedLong, hk]
    omega

/-- An edge event, qualifying edge by qualifying edge. -/
theorem sampleEdges_longPressesMatch {s : State} (h : meetsR12 s.cfg = true) (k : Key) (mask : ColBits) :
    LongPressesMatch k s (sampleEdges mask s) :=
  sampleEdges_induction mask s (.refl k s) fun t r c _ _ ht =>
    ht.trans (creditKey_longPressesMatch (by rw [ht.cfg]; exact h) k ⟨r, c⟩)

/-- A short event is not long (R85, R95). -/
theorem isLongEvent_of_short {e : Event} (h : isShortEvent e = true) : isLongEvent e = false := by
  cases e with
  | singleShort k1 => rfl
  | chordShort k1 k2 => rfl
  | singleLong k1 => cases h
  | chordLong k1 k2 => cases h

/-- A TICK reports no long press (R95). -/
theorem longPresses_of_exec_tick {s t : State} {r : Row} {cols : ColBits} (hr : s.rowOut = rowPattern r)
    (h : exec (.tick cols) s = .next t) (k : Key) : longPresses k s t = 0 := by
  have released := releasesKeys_of_exec_tick hr h
  exact List.countP_eq_zero.mpr fun e he => by simp [isLongEventOf, isLongEvent_of_short (released.short e he)]

/-- An operation matches the long presses of a key, or it clears the key's counter and reports none (R21, R79). -/
theorem exec_longPresses_cases {i : Instr} {s t : State} (hc : meetsR12 s.cfg = true) (h : exec i s = .next t)
    (k : Key) : LongPressesMatch k s t ∨ (t.count k = 0 ∧ longPresses k s t = 0) := by
  rcases exec_next_cases h with ⟨-, rfl⟩ | ⟨-, rfl⟩ | ⟨mask, -, rfl⟩ | ⟨cols, r, rfl, hr, rfl⟩
  · exact .inl (.refl k t)
  · exact .inr ⟨resetBlock_count s k, longPresses_of_events_eq (resetBlock_events s) k⟩
  · exact .inl (sampleEdges_longPressesMatch hc k mask)
  · have hnone := longPresses_of_exec_tick hr h k
    rcases releasePhase_count_cases r cols s k with hk | hk
    · exact .inl ⟨exec_keeps_cfg h, exec_events_prefix h, by simp [hnone, firedLong, hk]⟩
    · exact .inr ⟨hk, hnone⟩

/-- Settles O44: a long press is reported exactly as `firedLong` goes from 0 to 1; a cleared key is not LongFired. -/
theorem longFiredIsEnteredExactlyWithItsReport : Obligations.LongFiredIsEnteredExactlyWithItsReport := by
  intro i s t k hc _ h
  have hct : meetsR12 t.cfg = true := by rwa [exec_keeps_cfg h]
  have hle := firedLong_le_one k t
  rw [← List.countP_pos_iff, Ne, phase_eq_longFired_iff hc, phase_eq_longFired_iff hct]
  change _ ↔ 0 < longPresses k s t
  rcases exec_longPresses_cases hc h k with hmatch | ⟨h0, hnone⟩
  · have := hmatch.fired
    omega
  · have hpos := ((meetsR12_iff t.cfg).mp hct).2.2.2
    have hidle : firedLong k t = 0 := if_neg (by omega)
    omega

/-- A step that does not clear the counter of `k` matches its long presses (R83). -/
theorem step_longPressesMatch {s t : State} {k : Key} (hs : Safe s) (h : step s = .next t)
    (hclear : s.count k ≠ 0 → t.count k ≠ 0) : LongPressesMatch k s t := by
  rcases step_next_cases h with ⟨-, rfl⟩ | ⟨w, rest, i, -, -, he⟩
  · exact .refl k _
  · have hc := meetsR12_of_legal hs.config
    rcases exec_longPresses_cases (s := s.afterWord) hc he k with hmatch | ⟨h0, hnone⟩
    · exact ⟨hmatch.cfg, hmatch.events, hmatch.fired⟩
    · have hs0 : s.count k = 0 := by_contra fun hne => hclear hne h0
      have hcfg : t.cfg = s.cfg := exec_keeps_cfg (s := s.afterWord) he
      exact ⟨hcfg, step_events_prefix h, by rw [show longPresses k s t = 0 from hnone]; simp [firedLong, h0, hs0, hcfg]⟩

/-- A run in which no step clears the counter of `k` matches its long presses (R83). -/
theorem runSteps_longPressesMatch {n : Nat} {s t : State} {k : Key} (hs : Safe s) (hclear : NoClear k n s)
    (h : runSteps n s = .next t) : LongPressesMatch k s t := by
  induction n generalizing s with
  | zero => cases h; exact .refl k _
  | succ n ih =>
    cases hu : step s with
    | next u =>
      have first : s.count k ≠ 0 → u.count k ≠ 0 := hclear 0 s u n.succ_pos rfl (runSteps_succ_next hu)
      have later : NoClear k n u := fun m v w hm hv hw =>
        hclear (m + 1) v w (by omega) ((runSteps_succ_next hu).trans hv) ((runSteps_succ_next hu).trans hw)
      rw [runSteps_succ_next hu] at h
      exact (step_longPressesMatch hs hu first).trans (ih (stepKeepsSafe s u hs hu) later h)
    | fault f => exact nomatch f
    | refused f => rw [runSteps_succ_refused hu] at h; cases h

/-- Settles O47: over the run the key enters LongFired once for each of its long presses, so at most once. -/
theorem atMostOneLongPressBetweenClears : Obligations.AtMostOneLongPressBetweenClears := by
  intro n s t k hs hclear h
  have hmatch := (runSteps_longPressesMatch hs hclear h).fired
  have hle := firedLong_le_one k t
  rw [← List.countP_eq_length_filter]
  change longPresses k s t ≤ 1
  omega

end Sys2Proof.Machine
end

section
/-! The edge event where one row is low (R71 to R85): how many reports, which counters, and two keys at once. -/

namespace Sys2Proof.Machine

/-- A qualifying edge reports at most once (R79). -/
theorem creditKey_events_length_le (k : Key) (s : State) : (creditKey k s).events.length ≤ s.events.length + 1 := by
  rcases creditKey_cases k s with ⟨-, h⟩ | ⟨-, h⟩
  · obtain ⟨e, he, -⟩ := longPress_events k (s.setCount k (satInc s.cfg (s.count k)))
    simp [h, he]
  · simp [h]

/-- Columns processed in turn report at most once each (R72, R79). -/
theorem foldl_creditKey_events_length_le (mask : ColBits) (r : Row) (l : List Col) (s : State) :
    (l.foldl (fun s c => if colBit mask c then creditKey ⟨r, c⟩ s else s) s).events.length
      ≤ s.events.length + l.length := by
  induction l generalizing s with
  | nil => simp
  | cons c l ih =>
    rw [List.foldl_cons, List.length_cons]
    have hrest := ih (if colBit mask c then creditKey ⟨r, c⟩ s else s)
    have hfirst : (if colBit mask c then creditKey ⟨r, c⟩ s else s).events.length ≤ s.events.length + 1 := by
      split
      · exact creditKey_events_length_le ⟨r, c⟩ s
      · omega
    omega

/-- Settles O43: an EDGE and a TICK report at most once for each of three columns, NOP and RESET not at all. -/
theorem atMostThreeReportsAnOperation : Obligations.AtMostThreeReportsAnOperation := by
  rintro i s t ⟨r, hr⟩ h
  rcases exec_next_cases h with ⟨rfl, rfl⟩ | ⟨rfl, rfl⟩ | ⟨mask, rfl, rfl⟩ | ⟨cols, r', rfl, hr', rfl⟩
  · simp [newEvents]
  · simp [newEvents]
  · have hlen := foldl_creditKey_events_length_le mask r [0, 1, 2] s
    rw [← sampleEdges_of_pattern s r mask hr] at hlen
    refine ⟨?_, by simp⟩
    rw [newEvents, List.length_drop]
    exact Nat.sub_le_iff_le_add'.mpr hlen
  · exact ⟨(tickReports s _ r' cols hr' h).1, by simp⟩

/-- With exactly row `r` low, an edge event increments the keys of row `r` in its set columns (R73, R76). -/
theorem sampleEdges_count_of_pattern {s : State} {r : Row} (hr : s.rowOut = rowPattern r) (mask : ColBits) (k : Key) :
    (sampleEdges mask s).count k =
      if k.row = r ∧ mask[k.col] = true then satInc s.cfg (s.count k) else s.count k := by
  rw [sampleEdges_count, rowActive_of_pattern hr]
  exact if_congr (by simp [colBit, and_comm]) rfl rfl

/-- Settles O33: after the TICK the row low is the next one, and the EDGE credits that row. -/
theorem edgeAfterTickCreditsTheNextRow : Obligations.EdgeAfterTickCreditsTheNextRow := by
  intro s r cols mask hr
  have hcount := sampleEdges_count_of_pattern (advanceFrom_rowOut r (releasePhase r cols s)) mask
  refine ⟨_, _, exec_tick_of_pattern hr cols, exec_edge_of_sampleEdges rfl, fun k => ⟨fun hk => ?_, fun hrow hcol => ?_⟩⟩
  · rw [hcount, if_neg]
    rintro ⟨hrow, hcol⟩
    rcases hk with hk | hk
    · exact hk hrow
    · simp [hcol] at hk
  · rw [hcount, if_pos ⟨hrow, hcol⟩]
    simp

/-- Keys that are all idle are released with no effect (R88). -/
theorem releasePhase_of_idle {s : State} (h : ∀ k, s.count k = 0) (r : Row) (cols : ColBits) :
    releasePhase r cols s = s :=
  releasePhase_induction (P := fun t => t = s) r cols s rfl fun t c _ ht => by
    rw [ht, releaseCheck_of_idle (h ⟨r, c⟩)]

/-- Where R12 holds a counter at 0 is not saturated (R12, R78). -/
theorem satInc_zero {c : Config} (h : meetsR12 c = true) : satInc c 0 = 1 := by
  obtain ⟨hmax, -⟩ := (meetsR12_iff c).mp h
  exact if_neg (by omega)

/-- Settles O15: every counter is 0, so the TICK has nothing to release and the EDGE takes its keys from 0 to 1. -/
theorem firstOperationsAfterReset : Obligations.FirstOperationsAfterReset := by
  intro c hc
  refine ⟨fun cols => ?_, fun mask => ⟨_, exec_edge_of_sampleEdges rfl, fun k => ?_⟩⟩
  · rw [exec_tick_of_pattern (State.resetWith_rowOut c), releasePhase_of_idle (State.resetWith_count · c)]
    rfl
  · rw [sampleEdges_count_of_pattern (State.resetWith_rowOut c), State.resetWith_count, State.resetWith_cfg,
      satInc_zero hc]

/-- Settles O18: RESET writes the counters and the row that stand there already. -/
theorem resetInTheResetStateChangesNothing : Obligations.ResetInTheResetStateChangesNothing := by
  intro s h0 hrow
  have hsame : resetBlock s = s := state_ext rfl (fun k => by rw [resetBlock_count, h0 k]) hrow.symm rfl rfl
  rw [exec_reset, hsame]

/-- With exactly row `r` low, an edge event of columns `a < b` is one qualifying edge of each key, in that order
(R72, R73). -/
theorem sampleEdges_of_two_keys {s : State} {r : Row} {a b : Col} {mask : ColBits} (hr : s.rowOut = rowPattern r)
    (hab : a < b) (hmask : ∀ j : Col, mask[j] = decide (j = a ∨ j = b)) :
    sampleEdges mask s = creditKey ⟨r, b⟩ (creditKey ⟨r, a⟩ s) := by
  have hbit : ∀ j : Col, colBit mask j = decide (j = a ∨ j = b) := hmask
  have three : ∀ a b : Col, a < b → a = 0 ∧ b = 1 ∨ a = 0 ∧ b = 2 ∨ a = 1 ∧ b = 2 := by decide
  rw [sampleEdges_of_pattern s r mask hr]
  rcases three a b hab with ⟨rfl, rfl⟩ | ⟨rfl, rfl⟩ | ⟨rfl, rfl⟩ <;> simp [hbit]

/-- A qualifying edge at the threshold, where one other key alone is near: a chord with that key (R79, R80, R81). -/
theorem creditKey_events_of_one_near {s : State} {k p : Key} (hc : meetsR12 s.cfg = true)
    (hk : s.count k + 1 = s.cfg.longClickThreshold) (hp : p ≠ k) (hnear : isLongNear s.cfg (s.count p) = true)
    (hfar : ∀ q, q ≠ k → q ≠ p → ¬ isLongNear s.cfg (s.count q) = true) :
    (creditKey k s).events = s.events ++ [.chordLong k p] := by
  have hpartner : longPartner k s = some p :=
    longPartner_eq_some hp hnear fun q hq hqk => hfar q hqk fun hqp => by simp [hqp] at hq
  rw [creditKey_at_threshold hc hk, longPress_of_partner ((longPartner_setCount_self k s _).trans hpartner)]
  simp

/-- Settles O32: at the first key's edge the second is one below the threshold, so near; at the second's the first has
reached it. -/
theorem twoKeysCrossingTogetherGiveTwoChords : Obligations.TwoKeysCrossingTogetherGiveTwoChords := by
  intro s r a b mask hc hdev hr hab hmask ha hb hfar
  have hne : (⟨r, b⟩ : Key) ≠ ⟨r, a⟩ := by simp [hab.ne']
  have hfar' (q : Key) (hqa : q ≠ ⟨r, a⟩) (hqb : q ≠ ⟨r, b⟩) : ¬ isLongNear s.cfg (s.count q) = true := by
    have := hfar q hqa hqb
    rw [isLongNear_iff]
    omega
  have hfirst : (creditKey ⟨r, a⟩ s).events = s.events ++ [.chordLong ⟨r, a⟩ ⟨r, b⟩] :=
    creditKey_events_of_one_near hc ha hne (by rw [isLongNear_iff]; omega) hfar'
  have hreached : (creditKey ⟨r, a⟩ s).count ⟨r, a⟩ = s.cfg.longClickThreshold := by
    rw [creditKey_count, if_pos rfl, (satInc_eq_threshold_iff hc _).mpr ha]
  refine ⟨_, exec_edge_of_sampleEdges (sampleEdges_of_two_keys hr hab hmask), ?_⟩
  rw [creditKey_events_of_one_near (p := ⟨r, a⟩) (by simpa using hc) (by simpa [hne] using hb) hne.symm
    (by rw [hreached, creditKey_cfg, isLongNear_iff]; omega)
    fun q hqb hqa => by simpa [hqa] using hfar' q hqa hqb, hfirst]
  simp

end Sys2Proof.Machine
end

section
/-! Simulations: a relation of states that each qualifying edge, release-check and write of the rows keeps is kept by
every operation, step and run. -/

namespace Sys2Proof.Machine

/-- A relation of states that look alike to the arbiter and to the row readback and that the block's parts keep. -/
structure Simulation (R : State → State → Prop) : Prop where
  legal : ∀ {s t}, R s t → configLegal t.cfg = configLegal s.cfg
  meets : ∀ {s t}, R s t → meetsR12 t.cfg = meetsR12 s.cfg
  rowOut : ∀ {s t}, R s t → t.rowOut = s.rowOut
  stimulus : ∀ {s t}, R s t → t.stimulus = s.stimulus
  afterWord : ∀ {s t}, R s t → R s.afterWord t.afterWord
  setRowOut : ∀ {s t}, R s t → ∀ b, R (s.setRowOut b) (t.setRowOut b)
  resetBlock : ∀ {s t}, R s t → R (resetBlock s) (resetBlock t)
  creditKey : ∀ {s t}, R s t → ∀ k, R (creditKey k s) (creditKey k t)
  releaseCheck : ∀ {s t}, R s t → ∀ k, R (releaseCheck k s) (releaseCheck k t)

/-- Both outcomes answer related states, or both are the same refusal. -/
def OutcomesRelated (R : State → State → Prop) (a b : Host.Outcome State Fault Refusal) : Prop :=
  (∃ s t, a = .next s ∧ b = .next t ∧ R s t) ∨ ∃ f, a = .refused f ∧ b = .refused f

namespace Simulation

variable {R : State → State → Prop} (sim : Simulation R) {s t : State}

include sim

/-- The row readback is the same in related states (R32). -/
theorem rowActive (h : R s t) (r : Row) : rowActive t r = Machine.rowActive s r := by
  rw [Machine.rowActive, Machine.rowActive, sim.rowOut h]

/-- An edge event credits the same keys in both, one after another (R72, R73). -/
theorem sampleEdges (h : R s t) (mask : ColBits) : R (sampleEdges mask s) (sampleEdges mask t) := by
  refine List.foldl_rel h fun c _ s t h => ?_
  split
  · refine List.foldl_rel h fun r _ s t h => ?_
    rw [sim.rowActive h]
    split
    · exact sim.creditKey h _
    · exact h
  · exact h

/-- A release phase checks the same keys in both, one after another (R86). -/
theorem releasePhase (h : R s t) (r : Row) (cols : ColBits) : R (releasePhase r cols s) (releasePhase r cols t) := by
  refine List.foldl_rel h fun c _ s t h => ?_
  split
  · exact h
  · exact sim.releaseCheck h _

theorem curRow (h : R s t) : curRow t = Machine.curRow s := by
  rw [Machine.curRow, Machine.curRow, funext (sim.rowActive h)]

/-- Every operation keeps the relation, and a TICK is refused in both or in neither. -/
theorem exec (h : R s t) (i : Instr) : OutcomesRelated R (exec i s) (exec i t) := by
  cases i with
  | nop => exact .inl ⟨s, t, rfl, rfl, h⟩
  | edge mask => exact .inl ⟨_, _, rfl, rfl, sim.sampleEdges h mask⟩
  | reset => exact .inl ⟨_, _, rfl, rfl, sim.resetBlock h⟩
  | tick cols =>
    cases hr : Machine.curRow s with
    | some r =>
      have hs := pattern_of_curRow hr
      have ht := pattern_of_curRow ((sim.curRow h).trans hr)
      exact .inl ⟨_, _, exec_tick_of_pattern hs cols, exec_tick_of_pattern ht cols,
        sim.setRowOut (sim.releasePhase h r cols) _⟩
    | none =>
      have ht := (sim.curRow h).trans hr
      exact .inr ⟨.noCurrentRow, by simp [Machine.exec, execTick, hr], by simp [Machine.exec, execTick, ht]⟩

/-- The arbiter admits the same in both, so a step keeps the relation. -/
theorem step (h : R s t) : OutcomesRelated R (step s) (step t) := by
  unfold Machine.step admitNext
  rw [sim.legal h, sim.meets h, sim.stimulus h]
  by_cases hc : configLegal s.cfg = true
  · simp only [hc, if_true]
    cases s.stimulus with
    | nil => exact .inl ⟨s, t, rfl, rfl, h⟩
    | cons w rest =>
      cases hd : decode w with
      | op i => simpa [hd] using sim.exec (sim.afterWord h) i
      | illegal why => exact .inr ⟨.illegalStimulus w why, by simp [hd], by simp [hd]⟩
  · simp only [hc]
    exact .inr ⟨_, rfl, rfl⟩

/-- A run keeps the relation, by induction on the number of steps. -/
theorem runSteps (h : R s t) (n : Nat) : OutcomesRelated R (runSteps n s) (runSteps n t) := by
  induction n generalizing s t with
  | zero => exact .inl ⟨s, t, rfl, rfl, h⟩
  | succ n ih =>
    rcases sim.step h with ⟨s', t', hs, ht, h'⟩ | ⟨f, hs, ht⟩
    · rw [runSteps_succ_next hs, runSteps_succ_next ht]
      exact ih h'
    · exact .inr ⟨f, runSteps_succ_refused hs, runSteps_succ_refused ht⟩

end Simulation

end Sys2Proof.Machine
end

section
/-! The output event sequence is never read (R18, R96): other events before it change nothing but themselves. -/

namespace Sys2Proof.Machine

/-- The state with these events emitted before its own. -/
def State.withEarlier (before : List Event) (s : State) : State := { s with events := before ++ s.events }

variable (before : List Event) (s : State) (k : Key) (v : Nat) (e : Event)

@[simp] theorem State.withEarlier_cfg : (s.withEarlier before).cfg = s.cfg := rfl
@[simp] theorem State.withEarlier_count : (s.withEarlier before).count k = s.count k := rfl
@[simp] theorem State.setCount_withEarlier :
    (s.withEarlier before).setCount k v = (s.setCount k v).withEarlier before := rfl

@[simp] theorem State.emit_withEarlier : (s.withEarlier before).emit e = (s.emit e).withEarlier before := by
  simp [State.emit, State.withEarlier]

@[simp] theorem longPartner_withEarlier : longPartner k (s.withEarlier before) = longPartner k s :=
  longPartner_congr rfl fun _ => rfl

@[simp] theorem shortPartner_withEarlier : shortPartner k (s.withEarlier before) = shortPartner k s :=
  shortPartner_congr rfl fun _ => rfl

theorem longPress_withEarlier : longPress k (s.withEarlier before) = (longPress k s).withEarlier before := by
  unfold longPress
  rw [longPartner_withEarlier]
  cases longPartner k s <;> exact State.emit_withEarlier ..

theorem creditKey_withEarlier : creditKey k (s.withEarlier before) = (creditKey k s).withEarlier before := by
  simp only [creditKey, State.withEarlier_cfg, State.withEarlier_count, State.setCount_withEarlier,
    longPress_withEarlier, apply_ite (State.withEarlier before)]

theorem releaseCheck_withEarlier : releaseCheck k (s.withEarlier before) = (releaseCheck k s).withEarlier before := by
  rcases releaseCheck_cases k s with ⟨h0, h⟩ | ⟨hk, p, hp, h⟩ | ⟨hk, hp, h⟩ | ⟨h0, hk, h⟩ <;> rw [h]
  · rw [releaseCheck_of_idle (by simpa using h0)]
  · rw [releaseCheck_of_partner (p := p) (by simpa using hk) (by simpa using hp)]; simp
  · rw [releaseCheck_of_no_partner (by simpa using hk) (by simpa using hp)]; simp
  · rw [releaseCheck_of_not_short (by simpa using h0) (by simp [hk])]; simp

/-- Other events emitted before are carried along by every part of the block. -/
theorem simulation_withEarlier : Simulation fun s t => t = s.withEarlier before where
  legal := by rintro s _ rfl; rfl
  meets := by rintro s _ rfl; rfl
  rowOut := by rintro s _ rfl; rfl
  stimulus := by rintro s _ rfl; rfl
  afterWord := by rintro s _ rfl; rfl
  setRowOut := by rintro s _ rfl b; rfl
  resetBlock := by rintro s _ rfl; rfl
  creditKey := by rintro s _ rfl k; exact creditKey_withEarlier before s k
  releaseCheck := by rintro s _ rfl k; exact releaseCheck_withEarlier before s k

/-- Settles O42: the two steps are related by `withEarlier`. -/
theorem reportsAreNeverRead : Obligations.ReportsAreNeverRead := by
  intro s before
  have hstart : ({ s with events := before } : State) = State.withEarlier before { s with events := [] } := by
    simp [State.withEarlier]
  have hstep := (simulation_withEarlier before).step hstart
  refine ⟨fun t ht => ?_, fun f hf => ?_⟩
  · rcases hstep with ⟨u, v, hu, hv, rfl⟩ | ⟨f, hf, -⟩
    · cases ht.symm.trans hu
      exact hv
    · cases ht.symm.trans hf
  · rcases hstep with ⟨u, v, hu, -, -⟩ | ⟨g, hg, hg'⟩
    · cases hf.symm.trans hu
    · cases hf.symm.trans hg
      exact hg'

end Sys2Proof.Machine
end

section
/-! The counter width is not observable (R13): values that are equal, or have both reached the smaller `CNT_MAX`, give
the same answer to every test, and the increment keeps them so. -/

namespace Sys2Proof.Machine

/-- Two legal configurations that differ in the counter width alone. -/
structure WidthsDiffer (c d : Config) : Prop where
  eq : d = { c with counterWidth := d.counterWidth }
  left : configLegal c = true
  right : configLegal d = true

namespace WidthsDiffer

variable {c d : Config} (h : WidthsDiffer c d) {v w : Nat}

include h

theorem longClickThreshold : d.longClickThreshold = c.longClickThreshold := by rw [h.eq]
theorem shortClickThreshold : d.shortClickThreshold = c.shortClickThreshold := by rw [h.eq]
theorem longNear : longNear d = Machine.longNear c := by rw [h.eq]; rfl
theorem resetRow : d.resetRow = c.resetRow := by rw [h.eq]

/-- The smaller `CNT_MAX` is above the long threshold and not below the short one (R12, R13). -/
theorem bounds : c.longClickThreshold < min (cntMax c) (cntMax d) ∧ 1 ≤ c.longClickThreshold
    ∧ c.shortClickThreshold ≤ min (cntMax c) (cntMax d) := by
  obtain ⟨hc, hcs⟩ := (configLegal_iff c).mp h.left
  obtain ⟨hd, hds⟩ := (configLegal_iff d).mp h.right
  obtain ⟨hcl, -, -, hpos⟩ := (meetsR12_iff c).mp hc
  obtain ⟨hdl, -⟩ := (meetsR12_iff d).mp hd
  rw [h.longClickThreshold] at hdl
  rw [h.shortClickThreshold] at hds
  exact ⟨lt_min hcl hdl, hpos, le_min hcs hds⟩

end WidthsDiffer

/-- The values of a counter in two blocks that differ in the width alone: equal, or past the bound `m` (R13). -/
def SameCount (m v w : Nat) : Prop := v = w ∨ (m ≤ v ∧ m ≤ w)

namespace SameCount

/-- The increment keeps two values equal or past the bound (R78). -/
theorem satInc {c d : Config} {v w : Nat} (h : SameCount (min (cntMax c) (cntMax d)) v w) :
    SameCount (min (cntMax c) (cntMax d)) (satInc c v) (satInc d w) := by
  unfold Machine.satInc SameCount
  rcases h with rfl | h <;> split <;> split <;> omega

variable {c d : Config} (h : WidthsDiffer c d) {v w : Nat} (hv : SameCount (min (cntMax c) (cntMax d)) v w)

include h hv

theorem eq_zero_iff : w = 0 ↔ v = 0 := by
  have := h.bounds
  rcases hv with rfl | hv <;> omega

theorem isShortCount : isShortCount d w = isShortCount c v := by
  have := h.bounds
  rw [Bool.eq_iff_iff, isShortCount_iff, isShortCount_iff, h.shortClickThreshold]
  rcases hv with rfl | hv <;> omega

theorem isLongNear : isLongNear d w = isLongNear c v := by
  obtain ⟨hlong, -⟩ := h.bounds
  have hnear : longNear c ≤ c.longClickThreshold := Nat.sub_le _ _
  simp only [Machine.isLongNear, h.longNear]
  rcases hv with rfl | hv
  · rfl
  · exact decide_eq_decide.mpr (by omega)

/-- The increment reaches the threshold in both or in neither (R79). -/
theorem satInc_eq_threshold_iff :
    Machine.satInc d w = d.longClickThreshold ↔ Machine.satInc c v = c.longClickThreshold := by
  obtain ⟨hlong, -⟩ := h.bounds
  rw [Machine.satInc_eq_threshold_iff (meetsR12_of_legal h.right),
    Machine.satInc_eq_threshold_iff (meetsR12_of_legal h.left), h.longClickThreshold]
  rcases hv with rfl | hv <;> omega

end SameCount

/-- Two states of blocks with legal configurations that differ in the counter width alone. -/
structure AlikeUpToWidth (s t : State) : Prop where
  cfg : WidthsDiffer s.cfg t.cfg
  rowOut : t.rowOut = s.rowOut
  stimulus : t.stimulus = s.stimulus
  events : t.events = s.events
  count : ∀ k, SameCount (min (cntMax s.cfg) (cntMax t.cfg)) (s.count k) (t.count k)

/-- The relation of the statement, between legal configurations. -/
theorem alikeUpToWidth_iff {s t : State} : AlikeUpToWidth s t ↔
    SameUpToWidth s t ∧ configLegal s.cfg = true ∧ configLegal t.cfg = true :=
  ⟨fun h => ⟨⟨h.cfg.eq, h.rowOut, h.stimulus, h.events, h.count⟩, h.cfg.left, h.cfg.right⟩,
    fun ⟨h, hs, ht⟩ => ⟨⟨h.cfg, hs, ht⟩, h.rowOut, h.stimulus, h.events, h.count⟩⟩

namespace AlikeUpToWidth

variable {s t : State} (h : AlikeUpToWidth s t)

include h

theorem emit (e : Event) : AlikeUpToWidth (s.emit e) (t.emit e) :=
  ⟨h.cfg, h.rowOut, h.stimulus, by simp [h.events], h.count⟩

theorem setCount (k : Key) {v w : Nat} (hv : SameCount (min (cntMax s.cfg) (cntMax t.cfg)) v w) :
    AlikeUpToWidth (s.setCount k v) (t.setCount k w) := by
  refine ⟨h.cfg, h.rowOut, h.stimulus, h.events, fun j => ?_⟩
  rw [State.setCount_count, State.setCount_count]
  split
  · exact hv
  · exact h.count j

theorem longPartner (k : Key) : longPartner k t = Machine.longPartner k s :=
  firstInScan_congr fun j => by rw [SameCount.isLongNear h.cfg (h.count j)]

theorem shortPartner (k : Key) : shortPartner k t = Machine.shortPartner k s :=
  firstInScan_congr fun j => by rw [SameCount.isShortCount h.cfg (h.count j)]

theorem longPress (k : Key) : AlikeUpToWidth (longPress k s) (longPress k t) := by
  unfold Machine.longPress
  rw [h.longPartner]
  cases Machine.longPartner k s <;> exact h.emit _

theorem creditKey (k : Key) : AlikeUpToWidth (creditKey k s) (creditKey k t) := by
  have hset := h.setCount k (SameCount.satInc (h.count k))
  have hiff := SameCount.satInc_eq_threshold_iff h.cfg (h.count k)
  rcases creditKey_cases k s with ⟨hs, hsk⟩ | ⟨hs, hsk⟩ <;> rcases creditKey_cases k t with ⟨ht, htk⟩ | ⟨ht, htk⟩
  · rw [hsk, htk]; exact hset.longPress k
  · exact absurd (hiff.mpr hs) ht
  · exact absurd (hiff.mp ht) hs
  · rw [hsk, htk]; exact hset

theorem releaseCheck (k : Key) : AlikeUpToWidth (releaseCheck k s) (releaseCheck k t) := by
  have hzero := SameCount.eq_zero_iff h.cfg (h.count k)
  have hshort := SameCount.isShortCount h.cfg (h.count k)
  have hpartner := h.shortPartner k
  rcases releaseCheck_cases k s with ⟨h0, hs⟩ | ⟨hk, p, hp, hs⟩ | ⟨hk, hp, hs⟩ | ⟨h0, hk, hs⟩ <;> rw [hs]
  · rw [releaseCheck_of_idle (hzero.mpr h0)]
    exact h
  · rw [releaseCheck_of_partner (hshort.trans hk) (hpartner.trans hp)]
    exact ((h.emit _).setCount k (.inl rfl)).setCount p (.inl rfl)
  · rw [releaseCheck_of_no_partner (hshort.trans hk) (hpartner.trans hp)]
    exact (h.emit _).setCount k (.inl rfl)
  · rw [releaseCheck_of_not_short (mt hzero.mp h0) (by simp [hshort, hk])]
    exact h.setCount k (.inl rfl)

end AlikeUpToWidth

/-- Blocks that differ in the width alone go alike through every part (R13). -/
theorem simulation_alikeUpToWidth : Simulation AlikeUpToWidth where
  legal h := h.cfg.right.trans h.cfg.left.symm
  meets h := (meetsR12_of_legal h.cfg.right).trans (meetsR12_of_legal h.cfg.left).symm
  rowOut h := h.rowOut
  stimulus h := h.stimulus
  afterWord h := ⟨h.cfg, h.rowOut, by simp [h.stimulus], h.events, h.count⟩
  setRowOut h b := ⟨h.cfg, rfl, h.stimulus, h.events, h.count⟩
  resetBlock h := ⟨h.cfg, by simp [h.cfg.resetRow], h.stimulus, h.events, fun k => .inl (by simp)⟩
  creditKey h := h.creditKey
  releaseCheck h := h.releaseCheck

theorem AlikeUpToWidth.observe {s t : State} (h : AlikeUpToWidth s t) : observe s = observe t := by
  simp [Machine.observe, rowN, h.rowOut, h.events]

/-- Settles O48: the relation of the statement, with both configurations legal, is a simulation. -/
theorem counterWidthIsNotObservable : Obligations.CounterWidthIsNotObservable := by
  intro n s t hs ht h
  have alike : AlikeUpToWidth s t := alikeUpToWidth_iff.mpr ⟨h, hs.config, ht.config⟩
  rcases simulation_alikeUpToWidth.runSteps alike n with ⟨s', t', hs', ht', h'⟩ | hrefused
  · exact .inl ⟨s', t', hs', ht', h'.observe, (alikeUpToWidth_iff.mp h').1⟩
  · exact .inr hrefused

/-- Where R12 holds with the short threshold not above the long one, the configuration is legal (log entry 10). -/
theorem configLegal_of_short_le_long {c : Config} (h : meetsR12 c = true)
    (hle : c.shortClickThreshold ≤ c.longClickThreshold) : configLegal c = true := by
  obtain ⟨hmax, -⟩ := (meetsR12_iff c).mp h
  exact (configLegal_iff c).mpr ⟨h, by omega⟩

/-- Settles O53: both configurations are legal, and their reset states are alike up to width. -/
theorem widthIsNotObservableAtTheNormativeThresholds : Obligations.WidthIsNotObservableAtTheNormativeThresholds := by
  intro c w n words hlong hshort hc hd
  have hle : c.shortClickThreshold ≤ c.longClickThreshold := by omega
  have alike : AlikeUpToWidth { State.resetWith c with stimulus := words }
      { State.resetWith { c with counterWidth := w } with stimulus := words } :=
    ⟨⟨rfl, configLegal_of_short_le_long hc hle, configLegal_of_short_le_long hd hle⟩, rfl, rfl, rfl, fun _ => .inl rfl⟩
  rcases simulation_alikeUpToWidth.runSteps alike n with ⟨s', t', hs', ht', h'⟩ | hrefused
  · exact .inl ⟨s', t', hs', ht', h'.observe⟩
  · exact .inr hrefused

/-- Settles O57: past `CNT_MAX` only the test of the short threshold can change, and it does not exactly where
`CNT_MAX` is not below that threshold. -/
theorem legalConfigurationsAnswerAlikePastSaturation : Obligations.LegalConfigurationsAnswerAlikePastSaturation := by
  intro c hc
  obtain ⟨hmax, -, -, hpos⟩ := (meetsR12_iff c).mp hc
  have hnear : longNear c ≤ c.longClickThreshold := Nat.sub_le _ _
  rw [configLegal_iff]
  constructor
  · rintro ⟨-, hshort⟩ v hv
    omega
  · intro h
    obtain ⟨-, hshort, -⟩ := h (max (cntMax c) c.shortClickThreshold) (le_max_left _ _)
    exact ⟨hc, by omega⟩

end Sys2Proof.Machine
end

section
/-! Why R13 needs the bound of log entry 10: a key pressed `SHORT_CLICK_THRESHOLD` times and released is short where its
counter saturates below that threshold, and not where it does not (R78, R87). -/

namespace Sys2Proof.Machine

/-- The increment of a counter in range is one more, cut to `CNT_MAX` (R78). -/
theorem satInc_eq_min {c : Config} {v : Nat} (h : v ≤ cntMax c) : satInc c v = min (v + 1) (cntMax c) := by
  unfold satInc
  split <;> omega

/-- A run of operations goes on from the state its first operations answer. -/
theorem runOps_append_next {ops : List Instr} {s t : State} (h : runOps ops s = .next t) (more : List Instr) :
    runOps (ops ++ more) s = runOps more t := by
  induction ops generalizing s with
  | nil => cases h; rfl
  | cons i ops ih =>
    cases hi : exec i s with
    | next u =>
      rw [runOps_cons_next hi] at h
      rw [List.cons_append, runOps_cons_next hi, ih h]
    | fault f => exact nomatch f
    | refused f => rw [runOps, hi] at h; cases h

/-- The report of a qualifying edge, if any, is long (R85). -/
theorem creditKey_events_long {s : State} (h : ∀ e ∈ s.events, isLongEvent e = true) (k : Key) :
    ∀ e ∈ (creditKey k s).events, isLongEvent e = true := by
  rcases creditKey_cases k s with ⟨-, hk⟩ | ⟨-, hk⟩ <;> rw [hk]
  · obtain ⟨f, hf, hlong, -⟩ := longPress_events k (s.setCount k (satInc s.cfg (s.count k)))
    rw [hf]
    exact fun e he => (List.mem_append.mp he).elim (h e) fun he => List.mem_singleton.mp he ▸ hlong
  · exact h

/-- A press of `n` edges of one key: the reports are all long, and the counter goes up by `n`, cut to `CNT_MAX` (R78,
R85). -/
theorem runOps_replicate_edge {r : Row} {c : Col} {mask : ColBits} (hmask : ∀ j : Col, mask[j] = decide (j = c))
    (n : Nat) {s : State} (hr : s.rowOut = rowPattern r) (hv : s.count ⟨r, c⟩ ≤ cntMax s.cfg)
    (hlong : ∀ e ∈ s.events, isLongEvent e = true) :
    ∃ t, runOps (List.replicate n (.edge mask)) s = .next t ∧ t.cfg = s.cfg ∧ t.rowOut = rowPattern r
      ∧ t.count ⟨r, c⟩ = min (s.count ⟨r, c⟩ + n) (cntMax s.cfg) ∧ ∀ e ∈ t.events, isLongEvent e = true := by
  induction n generalizing s with
  | zero => exact ⟨s, rfl, rfl, hr, by omega, hlong⟩
  | succ n ih =>
    have hone : exec (.edge mask) s = .next (creditKey ⟨r, c⟩ s) :=
      exec_edge_of_sampleEdges (sampleEdges_of_one_key hr hmask)
    have hcount : (creditKey ⟨r, c⟩ s).count ⟨r, c⟩ = min (s.count ⟨r, c⟩ + 1) (cntMax s.cfg) := by
      rw [creditKey_count, if_pos rfl, satInc_eq_min hv]
    obtain ⟨t, ht, hcfg, hrow, htcount, htlong⟩ := ih (s := creditKey ⟨r, c⟩ s) (by simpa using hr)
      (by rw [hcount, creditKey_cfg]; omega) (creditKey_events_long hlong ⟨r, c⟩)
    rw [hcount, creditKey_cfg] at htcount
    rw [creditKey_cfg] at hcfg
    exact ⟨t, (runOps_cons_next hone _).trans ht, hcfg, hrow, by omega, htlong⟩

/-- The release-check of a short key emits a short report (R90, R91). -/
theorem exists_short_of_releaseCheck {k : Key} {s : State} (h : isShortCount s.cfg (s.count k) = true) :
    ∃ e ∈ (releaseCheck k s).events, isShortEvent e = true := by
  cases hp : shortPartner k s with
  | some p => exact ⟨.chordShort k p, by simp [releaseCheck_of_partner h hp], rfl⟩
  | none => exact ⟨.singleShort k, by simp [releaseCheck_of_no_partner h hp], rfl⟩

/-- The key of column 0 on the reset row gets `n` edges and is released. -/
def pressAndRelease (n : Nat) : List Instr := List.replicate n (.edge 0b001#3) ++ [.tick 0b110#3]

/-- The press and release from reset ends in the release-check of a counter at `n`, cut to `CNT_MAX`, after long
reports only. -/
theorem runOps_pressAndRelease (c : Config) (n : Nat) :
    ∃ t, runOps (pressAndRelease n) (State.resetWith c) =
        .next (advanceFrom c.resetRow (releaseCheck ⟨c.resetRow, 0⟩ t))
      ∧ t.cfg = c ∧ t.count ⟨c.resetRow, 0⟩ = min n (cntMax c) ∧ ∀ e ∈ t.events, isLongEvent e = true := by
  obtain ⟨t, ht, hcfg, hrow, hcount, hlong⟩ :=
    runOps_replicate_edge (c := 0) (mask := 0b001#3) (by decide) n (State.resetWith_rowOut c) (by simp) (by simp)
  refine ⟨t, ?_, hcfg, by simpa using hcount, hlong⟩
  rw [pressAndRelease, runOps_append_next ht, runOps_cons_next (exec_tick_of_one_key (c := 0) hrow (by decide)),
    runOps_nil]

/-- Settles O54: after `SHORT_CLICK_THRESHOLD` edges the saturated counter is short and its release is reported; the
other counter is at the threshold and cleared in silence. -/
theorem widthIsObservableAcrossTheShortThreshold : Obligations.WidthIsObservableAcrossTheShortThreshold := by
  intro c w hc _ hlt hle
  obtain ⟨hmax, hshort, -, -⟩ := (meetsR12_iff c).mp hc
  obtain ⟨t, ht, htcfg, htcount, -⟩ := runOps_pressAndRelease c c.shortClickThreshold
  obtain ⟨u, hu, hucfg, hucount, hulong⟩ :=
    runOps_pressAndRelease { c with counterWidth := w } c.shortClickThreshold
  refine ⟨_, _, _, ht, hu, fun heq => ?_⟩
  rw [advanceFrom_events, advanceFrom_events] at heq
  have htshort : isShortCount t.cfg (t.count ⟨c.resetRow, 0⟩) = true := by
    rw [isShortCount_iff, htcount, htcfg]
    omega
  have hunot : ¬ isShortCount u.cfg (u.count ⟨c.resetRow, 0⟩) = true := by
    rw [isShortCount_iff, hucount, hucfg]
    simp only
    omega
  obtain ⟨e, he, hes⟩ := exists_short_of_releaseCheck htshort
  rw [heq, releaseCheck_of_not_short (by rw [hucount]; omega) hunot, State.setCount_events] at he
  exact Bool.noConfusion ((isLongEvent_of_short hes).symm.trans (hulong e he))

end Sys2Proof.Machine
end

section
/-! The assembler (R62, R63): the tokens of lines and of a REPEAT around them, and what they assemble to. -/

namespace Sys2Proof.Machine

/-- The text of operations, one a line (R62). -/
def linesText (ops : List Instr) : List Char := ops.flatMap fun i => printInstr i ++ ['\n']

/-- The tokens of operations, one a line (R62). -/
def linesTokens (ops : List Instr) : List Token := ops.flatMap instrTokens

theorem linesTokens_cons (i : Instr) (ops : List Instr) : linesTokens (i :: ops) = instrTokens i ++ linesTokens ops :=
  List.flatMap_cons

/-- The line that opens a REPEAT (R63). -/
def openingText (n : Nat) : List Char := repeatWord ++ [' '] ++ Nat.toDigits 10 n ++ [' ', openBrace, '\n']

/-- The tokens that open a REPEAT (R63). -/
def openingTokens (n : Nat) : List Token := [repeatWord, Nat.toDigits 10 n, [openBrace]]

/-- Lines of operations give their tokens. -/
theorem lexFrom_linesText (ops : List Instr) (rest : List Char) :
    lexFrom false [] (linesText ops ++ rest) = linesTokens ops ++ lexFrom false [] rest := by
  induction ops with
  | nil => rfl
  | cons i ops ih =>
    have hline : linesText (i :: ops) ++ rest = printInstr i ++ '\n' :: (linesText ops ++ rest) := by
      simp [linesText]
    rw [hline, lexFrom_printInstr, ih, linesTokens_cons, List.append_assoc]

/-- The opening line of a REPEAT gives its tokens. -/
theorem lexFrom_openingText (n : Nat) (rest : List Char) :
    lexFrom false [] (openingText n ++ rest) = openingTokens n ++ lexFrom false [] rest := by
  have hword (text : List Char) : lexFrom false [] (repeatWord ++ ' ' :: text) = repeatWord :: lexFrom false [] text := rfl
  have hbrace (t : Token) (text : List Char) :
      lexFrom false t (' ' :: openBrace :: '\n' :: text) = flush t ([openBrace] :: lexFrom false [] text) := rfl
  have hline : openingText n ++ rest =
      repeatWord ++ ' ' :: (Nat.toDigits 10 n ++ ' ' :: openBrace :: '\n' :: rest) := by simp [openingText]
  rw [hline, hword, lexFrom_digits _ _ _ fun c => Nat.isDigit_of_mem_toDigits (by omega) (by omega), List.nil_append,
    hbrace, flush, if_neg (by simp)]
  rfl

/-- A closing brace is a token by itself. -/
theorem lexFrom_closeBrace (rest : List Char) :
    lexFrom false [] (closeBrace :: rest) = [closeBrace] :: lexFrom false [] rest := rfl

theorem lexFrom_newline (rest : List Char) : lexFrom false [] ('\n' :: rest) = lexFrom false [] rest := rfl

variable (outer : List (Nat × List Instr)) (before done : List Instr) (ts : List Token)

/-- The tokens of lines, at the start of a line, add their operations. -/
theorem assembleTokens_linesTokens (ops : List Instr) :
    assembleTokens ⟨.line, outer, done⟩ (linesTokens ops ++ ts) = assembleTokens ⟨.line, outer, done ++ ops⟩ ts := by
  induction ops generalizing done with
  | nil => rw [List.append_nil]; rfl
  | cons i ops ih =>
    rw [linesTokens_cons, List.append_assoc, assembleTokens_instrTokens]
    simpa using ih (done ++ [i])

/-- The tokens that open a REPEAT, at the start of a line, open it if its count is at least 1, and are rejected
otherwise (R63). -/
theorem assembleTokens_openingTokens (n : Nat) :
    assembleTokens ⟨.line, outer, done⟩ (openingTokens n ++ ts) =
      if 1 ≤ n then assembleTokens ⟨.line, (n, done) :: outer, []⟩ ts else none := by
  have hword : asmLine ⟨.line, outer, done⟩ repeatWord = some ⟨.count, outer, done⟩ := rfl
  simp only [openingTokens, List.cons_append, List.nil_append, assembleTokens, asmToken, hword, decimal_toDigits,
    Option.bind_some]
  split <;> simp

/-- The closing brace of a REPEAT writes its lines `n` times after those before it (R63). -/
theorem assembleTokens_closeBrace (n : Nat) :
    assembleTokens ⟨.line, (n, before) :: outer, done⟩ ([closeBrace] :: ts) =
      assembleTokens ⟨.line, outer, before ++ repeated n done⟩ ts := rfl

/-- At the end of the text, with no REPEAT open, the operations read are the program. -/
theorem assembleTokens_end : assembleTokens ⟨.line, [], done⟩ (lexFrom false [] []) = some done := rfl

/-- Settles O10: the text gives the tokens of its lines, and they add its operations. -/
theorem assemblerReadsWhatIsPrinted : Obligations.AssemblerReadsWhatIsPrinted := by
  intro ops
  have hlex := lexFrom_linesText ops []
  rw [List.append_nil] at hlex
  change assembleTokens ⟨.line, [], []⟩ (lexFrom false [] (linesText ops)) = some ops
  rw [hlex, assembleTokens_linesTokens, List.nil_append, assembleTokens_end]

/-- The text of a REPEAT around lines gives the tokens of its parts. -/
theorem lexFrom_repeat (n : Nat) (ops : List Instr) (rest : List Char) :
    lexFrom false [] (openingText n ++ linesText ops ++ closeBrace :: rest) =
      openingTokens n ++ (linesTokens ops ++ [closeBrace] :: lexFrom false [] rest) := by
  rw [List.append_assoc, lexFrom_openingText, lexFrom_linesText, lexFrom_closeBrace]

/-- The tokens of a REPEAT around lines add those lines `n` times (R63). -/
theorem assembleTokens_repeat {n : Nat} (hn : 1 ≤ n) (ops : List Instr) :
    assembleTokens ⟨.line, outer, done⟩ (openingTokens n ++ (linesTokens ops ++ [closeBrace] :: ts)) =
      assembleTokens ⟨.line, outer, done ++ repeated n ops⟩ ts := by
  rw [assembleTokens_openingTokens, if_pos hn, assembleTokens_linesTokens, assembleTokens_closeBrace, List.nil_append]

/-- Settles O11: the REPEAT's tokens add its lines `n` times, and its opening is rejected with the count 0. -/
theorem repeatExpandsItsLines : Obligations.RepeatExpandsItsLines := by
  intro ops text
  have hlex (n : Nat) : lex (text n) = openingTokens n ++ (linesTokens ops ++ [[closeBrace]]) := lexFrom_repeat n ops []
  refine ⟨fun n hn => ?_, ?_⟩
  · rw [assemble, hlex, assembleTokens_repeat _ _ _ hn]
    rfl
  · rw [assemble, hlex, assembleTokens_openingTokens, if_neg (by omega)]

/-- Settles O52: the inner REPEAT adds its lines within the outer one, between the lines around it. -/
theorem repeatsMayNest : Obligations.RepeatsMayNest := by
  intro m n before inner after hm hn _ lines opening closing
  have htext : opening m ++ lines before ++ (opening n ++ lines inner ++ closing) ++ lines after ++ closing =
      openingText m ++ (linesText before ++
        (openingText n ++ linesText inner ++ closeBrace :: '\n' :: (linesText after ++ closeBrace :: ['\n']))) := by
    simp [lines, opening, closing, linesText, openingText]
  rw [htext, assemble, lex, lexFrom_openingText, lexFrom_linesText, lexFrom_repeat, lexFrom_newline, lexFrom_linesText,
    lexFrom_closeBrace, lexFrom_newline, assembleTokens_openingTokens, if_pos hm, assembleTokens_linesTokens,
    assembleTokens_repeat _ _ _ hn, assembleTokens_linesTokens, assembleTokens_closeBrace, assembleTokens_end]
  rfl

end Sys2Proof.Machine
end

section
/-! The admissible inputs (R101, R103) and the order of arrival. -/

namespace Sys2Proof.Machine

/-- A sequence of operations interleaves its own two streams (R101). -/
theorem interleaves_streams (ops : List Instr) : Interleaves (tickStream ops) (edgeStream ops) ops := by
  induction ops with
  | nil => exact .none
  | cons i ops ih =>
    cases i with
    | nop => exact .nop ih
    | tick cols => exact .tick cols ih
    | edge mask => exact .edge mask ih
    | reset => exact .reset ih

/-- A sequence that interleaves two streams has them as its own (R101, R103). -/
theorem streams_of_interleaves {ticks edges : List ColBits} {ops : List Instr} (h : Interleaves ticks edges ops) :
    tickStream ops = ticks ∧ edgeStream ops = edges := by
  induction h with
  | none => exact ⟨rfl, rfl⟩
  | tick cols _ ih => simpa using ih
  | edge mask _ ih => simpa using ih
  | nop _ ih => exact ih
  | reset _ ih => exact ih

/-- Settles O55: `admissible` asks for the streams of the sequence, which it interleaves, and which are no others. -/
theorem admissibleInputsAreTheInterleavings : Obligations.AdmissibleInputsAreTheInterleavings := by
  refine ⟨fun ticks edges ops => ?_, fun ticks edges ticks' edges' ops h h' => ?_⟩
  · rw [admissible_iff]
    constructor
    · rintro ⟨rfl, rfl⟩
      exact interleaves_streams ops
    · exact streams_of_interleaves
  · obtain ⟨rfl, rfl⟩ := (admissible_iff ..).mp h
    exact (admissible_iff ..).mp h'

/-- A sequence with another stream of ticks or of edge events is not admissible (R101, R103). -/
theorem admissible_eq_false_iff (ticks edges : List ColBits) (ops : List Instr) :
    admissible ticks edges ops = false ↔ ¬ (tickStream ops = ticks ∧ edgeStream ops = edges) := by
  rw [← admissible_iff, Bool.not_eq_true]

/-- Settles O49: the streams of each sequence are read off; vectors O1 and O2 are run from reset. -/
theorem arrivalOrderIsOpenAndObservable : Obligations.ArrivalOrderIsOpenAndObservable := by
  refine ⟨fun cols mask => ?_, fun p cols mask => ?_, fun cols mask mask' => ?_, fun cols cols' hne => ?_, ?_⟩
  · simp [admissible_iff]
  · cases p <;> simp [admissible_iff, admitBoth]
  · simp [admissible_eq_false_iff]
  · simp [admissible_eq_false_iff, hne.symm]
  · exact ⟨0b000#3, 0b001#3, _, _, rfl, rfl, by decide, by decide, by decide⟩

end Sys2Proof.Machine
end

section
/-! The reference environment (R130 to R134): the edges of a move to the next row, and those of a key held alone. -/

namespace Sys2Proof.Machine

/-- A column asserts while the key of the current row in it is closed (R130). -/
theorem columnLevels_getElem (m : KeyMatrix) (r : Row) (c : Col) : (columnLevels m r)[c] = pressed m ⟨r, c⟩ := by
  have bits : ∀ b2 b1 b0 : Bool, ∀ c : Col,
      (BitVec.ofBool b2 ++ BitVec.ofBool b1 ++ BitVec.ofBool b0)[c] = #v[b0, b1, b2][c] := by decide
  have three : ∀ c : Col, c = 0 ∨ c = 1 ∨ c = 2 := by decide
  refine (bits _ _ _ c).trans ?_
  rcases three c with rfl | rfl | rfl <;> rfl

/-- The move to the next row gives a falling edge where its key is closed and this row's key is open (R130, R131). -/
theorem strobeEdges_getElem (m : KeyMatrix) (r : Row) (c : Col) :
    (strobeEdges m r)[c] = (pressed m ⟨nextRow r, c⟩ && !pressed m ⟨r, c⟩) := by
  rw [← columnLevels_getElem, ← columnLevels_getElem, strobeEdges, fallingEdges]
  simp

/-- Settles O50: the row of the statement is the next one. -/
theorem strobeEdgesAreMaskedByTheRowBefore : Obligations.StrobeEdgesAreMaskedByTheRowBefore :=
  strobeEdges_getElem

/-- The move to the next row gives the edge of a key held alone if the key is on that row, and none otherwise. -/
theorem strobeEdges_of_key_held_alone {m : KeyMatrix} {k : Key} (h : ∀ j, pressed m j = decide (j = k)) (r : Row) :
    strobeEdges m r = if nextRow r = k.row then 1#3 <<< k.col.val else 0#3 := by
  have bit : ∀ (d c : Col), (1#3 <<< d.val)[c] = decide (c = d) := by decide
  have hrow : nextRow r ≠ r := by revert r; decide
  obtain ⟨kr, kc⟩ := k
  refine BitVec.eq_of_getElem_eq fun c hc => ?_
  refine (strobeEdges_getElem m r ⟨c, hc⟩).trans ?_
  have hbit := bit kc ⟨c, hc⟩
  rw [h, h]
  by_cases hk : nextRow r = kr
  · have hr : r ≠ kr := fun hr => hrow (hk.trans hr.symm)
    simpa [hk, hr] using hbit.symm
  · simp [hk]

/-- One tick of the environment delivers the edge event of its falling edges, if there is any (R130). -/
theorem edgeStream_strobeOps (m : KeyMatrix) (r : Row) :
    edgeStream (strobeOps m r) = if strobeEdges m r = 0#3 then [] else [strobeEdges m r] := by
  rw [strobeOps, edgeStream_tick, edgeOps]
  split <;> simp

/-- Settles O51: each tick moves one row on, and one of four rows in turn is the key's. -/
theorem oneEdgeACycleForAKeyHeldAlone : Obligations.OneEdgeACycleForAKeyHeldAlone := by
  intro m k r h
  have hne : ∀ d : Col, 1#3 <<< d.val ≠ 0#3 := by decide
  have tick (r : Row) : edgeStream (strobeOps m r) = if nextRow r = k.row then [1#3 <<< k.col.val] else [] := by
    rw [edgeStream_strobeOps, strobeEdges_of_key_held_alone h]
    by_cases hr : nextRow r = k.row <;> simp [hr, hne]
  have cycle : ∀ (r kr : Row) (v : ColBits),
      (if nextRow r = kr then [v] else []) ++ ((if nextRow (nextRow r) = kr then [v] else [])
        ++ ((if nextRow (nextRow (nextRow r)) = kr then [v] else [])
        ++ ((if nextRow (nextRow (nextRow (nextRow r))) = kr then [v] else []) ++ []))) = [v] := by decide
  simp only [restOps, edgeStream_append, edgeStream_nil, tick]
  exact cycle r k.row _

end Sys2Proof.Machine
end
